-- ==== Sys2Proof/Word.lean ====
section
/-! DEFINITION. The word types of the WS281x serializer (00_scope.md R7): everything is unsigned,
bit 0 is the least significant bit. -/

namespace Sys2Proof

/-- One byte of the pixel buffer `raw` (10_state.md R15). -/
abbrev Byte := BitVec 8

/-- A command word `cmd[67:0]` (30_encoding.md R60). -/
abbrev CmdWord := BitVec 68

/-- A canonical packed colour `0xWWRRGGBB` (20_memory.md R43(a)). -/
abbrev Color := BitVec 32

/-- A pixel index or pixel count, 16 bits, unsigned (30_encoding.md R63; 92_eei_decisions.md D7). -/
abbrev PixelCount := BitVec 16

end Sys2Proof
end

