-- ==== Sys2Proof/Config.lean ====
section
/-! DEFINITION. What an implementation fixes (00_scope.md R4 to R6) and the free values: the values the spec
calls unspecified (93_implementation_defined.md V1, V3), which no proof can see. -/

namespace Sys2Proof

/-- The speed class, `SPEED`: 0 = Standard, 1 = Slow (10_state.md R13). -/
inductive Speed where
  | standard
  | slow
deriving DecidableEq, Repr

/-- The five timing parameters of one speed class, in ticks (00_scope.md R4). -/
structure Timing where
  /-- `T0H`: ticks the line is high for a 0 bit. -/
  t0h : Nat
  /-- `T0L`: ticks the line is low after the high part of a 0 bit. -/
  t0l : Nat
  /-- `T1H`: ticks the line is high for a 1 bit. -/
  t1h : Nat
  /-- `T1L`: ticks the line is low after the high part of a 1 bit. -/
  t1l : Nat
  /-- `TLATCH`: the minimum latch interval. -/
  tlatch : Nat
deriving DecidableEq, Repr

/-- `TBIT`, the ticks in one bit period; the same for both bit values in a well-formed record (R4, R5(b)). -/
def Timing.tbit (t : Timing) : Nat := t.t0h + t.t0l

/-- 00_scope.md R5 (a) to (d) for one class. -/
def Timing.wf (t : Timing) : Bool :=
  decide (1 ≤ t.t0h) && decide (1 ≤ t.t0l) && decide (1 ≤ t.t1h) && decide (1 ≤ t.t1l) &&
  decide (t.t0h + t.t0l = t.t1h + t.t1l) && decide (t.t0h ≠ t.t1h) && decide (1 ≤ t.tlatch)

/-- `TICK_NS` is positive where it is given (00_scope.md R4, its type). -/
def tickWf (tickNs : Option Rat) : Bool := tickNs.all fun ns => decide (0 < ns)

/-- The parameter record of 00_scope.md R4, well-formed by its type: "The rules of this spec are stated only for
well-formed parameter records; a model refuses any other" (R5), so any other record cannot be built.
The default values are one well-formed record, there only so that Lean sees that the type has a member
(`deriving Inhabited`, which an opaque constant needs); no rule and no meaning reads them. `W_IDX` is 16 for
every record (R4) and stands in the types. -/
structure Params where
  /-- `MAX_BYTES`: the capacity of the pixel buffer in bytes. -/
  maxBytes : Nat := 0
  /-- The timing parameters of the Standard class. -/
  standard : Timing := ⟨1, 2, 2, 1, 1⟩
  /-- The timing parameters of the Slow class. -/
  slow : Timing := ⟨1, 2, 2, 1, 1⟩
  /-- `TICK_NS`: the duration of a tick in nanoseconds, "informative only, no rule reads it" (R4). `none`: no duration is
  intended, as for `TINY` (R6). A rational stands for R4's positive real, so that the record stays plain data (log entry 1). -/
  tickNs : Option Rat := none
  standard_wf : standard.wf = true := by decide
  slow_wf : slow.wf = true := by decide
  tick_wf : tickWf tickNs = true := by decide
deriving DecidableEq, Repr, Inhabited

/-- The timing parameters of class `c`. -/
def Params.timing (p : Params) (c : Speed) : Timing :=
  match c with
  | .standard => p.standard
  | .slow => p.slow

/-- A number of ticks in nanoseconds, where the record gives `TICK_NS` (00_scope.md R6). Informative: no meaning uses it. -/
def Params.nanoseconds (p : Params) (ticks : Nat) : Option Rat := p.tickNs.map fun ns => ticks * ns

/-- The implementation's parameter record. OPEN in the spec (92_eei_decisions.md D5, D6): no body, so nothing
can be proved of its values beyond well-formedness. Only `State.reset` mentions it; every step reads the
record in the state (log entry 1). -/
opaque Config.params : Params

/-- The reference record `TINY` of 00_scope.md R6, used by the test vectors of 95_test_vectors.md. -/
def Config.tiny : Params where
  maxBytes := 16
  standard := ⟨1, 3, 3, 1, 6⟩
  slow := ⟨2, 6, 5, 3, 10⟩

/-- The reference record `REF20` of 00_scope.md R6, used by the test vectors of 95_test_vectors.md. -/
def Config.ref20 : Params where
  maxBytes := 1024
  standard := ⟨8, 17, 16, 9, 6000⟩
  slow := ⟨10, 40, 24, 26, 6000⟩
  tickNs := some 50

/-- FREE VALUE. `RSPC` in a tick with `RSPV = 0`: "When `RSPV = 0`, `RSPC` and `RSPD` are unspecified"
(10_state.md R21; 93_implementation_defined.md V3; log entry 4). -/
opaque Config.freeRspCode : Nat → BitVec 2

/-- FREE VALUE. `RSPD` in a tick with `RSPV = 0` (10_state.md R21; V3; log entry 4). -/
opaque Config.freeRspData : Nat → BitVec 32

/-- FREE VALUE. `BYTE_PTR` after a frame has ended (10_state.md R17; V1; log entry 5). -/
opaque Config.freeBytePtr : Nat → Nat

/-- FREE VALUE. `BIT_IDX` after a frame has ended (10_state.md R17; V1; log entry 5). -/
opaque Config.freeBitIdx : Nat → BitVec 3

/-- FREE VALUE. `CNT` after a frame has ended (10_state.md R18; V1; log entry 5). -/
opaque Config.freeCnt : Nat → Nat

end Sys2Proof
end

