-- ==== Sys2Proof/Syntax.lean ====
section
/-! DEFINITION. The nine commands (30_encoding.md R62), one constructor per row of spec/opcode_table.json. Operands
stand in the order of the assembler's text (R72). -/

namespace Sys2Proof

/-- A legal command. Operands are unsigned fields taken as they stand (30_encoding.md R63), each carried at
its width, so every value of an operand's type is one the encoding admits. -/
inductive Instr where
  /-- NOP (40_config_query.md R90). -/
  | nop
  /-- CFG `count, order, speed` (40_config_query.md R91). `order` is any byte: a byte that is no valid order
  code is a legal word, answered `BAD_ORDER`. -/
  | cfg (count : PixelCount) (order : BitVec 8) (speed : Speed)
  /-- SETPIX `index, color` (41_pixel_access.md R113). -/
  | setpix (index : PixelCount) (color : Color)
  /-- GETPIX `index` (41_pixel_access.md R114). -/
  | getpix (index : PixelCount)
  /-- FILL `color, first, count` (41_pixel_access.md R115). -/
  | fill (color : Color) (first : PixelCount) (count : PixelCount)
  /-- CLEAR (41_pixel_access.md R116). -/
  | clear
  /-- SHOW (42_frame_transmit.md R141). -/
  | showFrame
  /-- CANSHOW (43_latch_timer.md R184). -/
  | canshow
  /-- NUMPIX (40_config_query.md R94). -/
  | numpix
deriving DecidableEq, Repr

/-- The mnemonic of a command, as spec/opcode_table.json spells it. -/
def Instr.mnemonic : Instr → String
  | .nop => "NOP"
  | .cfg _ _ _ => "CFG"
  | .setpix _ _ => "SETPIX"
  | .getpix _ => "GETPIX"
  | .fill _ _ _ => "FILL"
  | .clear => "CLEAR"
  | .showFrame => "SHOW"
  | .canshow => "CANSHOW"
  | .numpix => "NUMPIX"

end Sys2Proof
end

