-- ==== Sys2Proof/WellFormed.lean ====
section
/-! DEFINITION. What is refused before the machine runs: a parameter record that is not well-formed (00_scope.md
R4, R5; 93_implementation_defined.md V8). A command needs no check of its own: the constructors of `Instr` carry each operand at
the width the encoding gives it, so every term of `Instr` has a legal word. Which words are illegal is the decoder's
matter (Decode.lean, 30_encoding.md R66); which order bytes are valid is `validOrder` there (R65), and a CFG with
another byte is a legal command that is answered `BAD_ORDER`. -/

namespace Sys2Proof

/-- Why a parameter record is refused (00_scope.md R4, R5 (a) to (d)). -/
inductive ParamFlaw where
  /-- One of `T0H`, `T0L`, `T1H`, `T1L` is 0 (R5(a)). -/
  | zeroPhase
  /-- `T0H + T0L ≠ T1H + T1L` (R5(b)). -/
  | unequalPeriods
  /-- `T0H = T1H` (R5(c)). -/
  | equalHighTimes
  /-- `TLATCH = 0` (R5(d)). -/
  | zeroLatch
  /-- `TICK_NS` is given and not positive (R4). -/
  | nonPositiveTick
deriving DecidableEq, Repr

/-- The first condition of R5 that a timing record breaks, if any. -/
def Timing.flaw (t : Timing) : Option ParamFlaw :=
  if t.t0h = 0 ∨ t.t0l = 0 ∨ t.t1h = 0 ∨ t.t1l = 0 then some .zeroPhase
  else if t.t0h + t.t0l ≠ t.t1h + t.t1l then some .unequalPeriods
  else if t.t0h = t.t1h then some .equalHighTimes
  else if t.tlatch = 0 then some .zeroLatch
  else none

theorem Timing.wf_of_flaw_none {t : Timing} (h : t.flaw = none) : t.wf = true := by
  simp only [Timing.flaw] at h
  split_ifs at h
  simp only [Timing.wf, Bool.and_eq_true, decide_eq_true_eq]
  omega

/-- Builds a parameter record, refusing an ill-formed one by the name of the condition it breaks. -/
def Params.make (maxBytes : Nat) (standard slow : Timing) (tickNs : Option Rat) : Except ParamFlaw Params :=
  match hs : standard.flaw, hl : slow.flaw with
  | none, none =>
    if ht : tickWf tickNs = true then
      .ok { maxBytes := maxBytes, standard := standard, slow := slow, tickNs := tickNs,
            standard_wf := Timing.wf_of_flaw_none hs, slow_wf := Timing.wf_of_flaw_none hl,
            tick_wf := ht }
    else .error .nonPositiveTick
  | some f, _ => .error f
  | none, some f => .error f

end Sys2Proof
end

