-- ==== Sys2Proof/Decode.lean ====
section
/-! DEFINITION. The command word: decoder, encoder, the opcode table as masks and patterns, and the order codes
(30_encoding.md sections 1 to 3). The decoder is total on 68-bit words and names what it rejects. -/

namespace Sys2Proof

/-! ### The four fields (R60) -/

/-- `op = cmd[67:64]`. -/
def opField (w : CmdWord) : BitVec 4 := w.extractLsb' 64 4
/-- `a = cmd[63:48]`. -/
def aField (w : CmdWord) : BitVec 16 := w.extractLsb' 48 16
/-- `b = cmd[47:32]`. -/
def bField (w : CmdWord) : BitVec 16 := w.extractLsb' 32 16
/-- `d = cmd[31:0]`. -/
def dField (w : CmdWord) : BitVec 32 := w.extractLsb' 0 32

/-- `speed = b[8]`: 0 = Standard, 1 = Slow (R64). -/
def speedOfBit (v : BitVec 1) : Speed := if v = 0#1 then .standard else .slow

/-- The bit that stands for a speed class (R64). -/
def bitOfSpeed : Speed → BitVec 1
  | .standard => 0#1
  | .slow => 1#1

/-! ### Order codes (R64, R65; 10_state.md R12) -/

/-- `WOFF = order[7:6]`. -/
def woffOf (order : BitVec 8) : Nat := (order.extractLsb' 6 2).toNat
/-- `ROFF = order[5:4]`. -/
def roffOf (order : BitVec 8) : Nat := (order.extractLsb' 4 2).toNat
/-- `GOFF = order[3:2]`. -/
def goffOf (order : BitVec 8) : Nat := (order.extractLsb' 2 2).toNat
/-- `BOFF = order[1:0]`. -/
def boffOf (order : BitVec 8) : Nat := (order.extractLsb' 0 2).toNat

/-- `CH`, the channels per pixel: 3 if `WOFF = ROFF`, else 4 (10_state.md R12). -/
def channelsOf (order : BitVec 8) : Nat := if woffOf order = roffOf order then 3 else 4

/-- Whether an order byte is valid (R65): the offsets of the channels it has are exactly the positions of a pixel
record. Pairwise distinct offsets below `CH` fill the record. -/
def validOrder (order : BitVec 8) : Bool :=
  let w := woffOf order
  let r := roffOf order
  let g := goffOf order
  let b := boffOf order
  if w = r then decide (r < 3 ∧ g < 3 ∧ b < 3 ∧ r ≠ g ∧ r ≠ b ∧ g ≠ b)
  else decide (r ≠ g ∧ r ≠ b ∧ g ≠ b ∧ w ≠ g ∧ w ≠ b)

/-! ### Decoding (R61, R62, R66) -/

/-- The operand fields of a word. -/
inductive CmdField where
  | a
  | b
  | d
deriving DecidableEq, Repr

/-- Why a word is illegal (R66). The machine answers either way with `ILLEGAL_CMD`. -/
inductive DecodeError where
  /-- `op` is `0x9` to `0xF`. -/
  | reservedOpcode (op : BitVec 4)
  /-- A bit of this field that the format says must be zero is 1. -/
  | mustBeZero (field : CmdField)
deriving DecidableEq, Repr

/-- Go on only if `v` is zero. -/
def requireZero {n : Nat} (field : CmdField) (v : BitVec n) (k : Except DecodeError Instr) : Except DecodeError Instr :=
  if v = 0 then k else .error (.mustBeZero field)

/-- Format `Z`: all three operand fields must be zero (R61). -/
def decodeZ (w : CmdWord) (i : Instr) : Except DecodeError Instr :=
  requireZero .a (aField w) (requireZero .b (bField w) (requireZero .d (dField w) (.ok i)))

/-- The command that word `w` stands for under opcode `op` (R61, R62). -/
def decodeAs (op : BitVec 4) (w : CmdWord) : Except DecodeError Instr :=
  match op with
  | 0x0#4 => decodeZ w .nop
  | 0x1#4 =>
    requireZero .b ((bField w).extractLsb' 9 7) (requireZero .d (dField w)
      (.ok (.cfg (aField w) ((bField w).extractLsb' 0 8) (speedOfBit ((bField w).extractLsb' 8 1)))))
  | 0x2#4 => requireZero .b (bField w) (.ok (.setpix (aField w) (dField w)))
  | 0x3#4 => requireZero .b (bField w) (requireZero .d (dField w) (.ok (.getpix (aField w))))
  | 0x4#4 => .ok (.fill (dField w) (aField w) (bField w))
  | 0x5#4 => decodeZ w .clear
  | 0x6#4 => decodeZ w .showFrame
  | 0x7#4 => decodeZ w .canshow
  | 0x8#4 => decodeZ w .numpix
  | op => .error (.reservedOpcode op)

/-- The decoder: the command a word stands for, or why it is illegal (R61, R62, R66). -/
def decode (w : CmdWord) : Except DecodeError Instr := decodeAs (opField w) w

/-- An instruction whose bits are `w`, as the host numbers them: the command is one word of 68 bits, so the table's
numbering is the word's own. Bits above `nbits` are 0; a number that does not fit in 68 bits is no command. -/
def decodeTableWord (nbits w : Nat) : Option Instr :=
  let v := w % 2 ^ nbits
  if v < 2 ^ 68 then
    match decode (BitVec.ofNat 68 v) with
    | .ok i => some i
    | .error _ => none
  else none

/-! ### Encoding (R60 to R64) -/

/-- The word with these four fields (R60). -/
def packWord (op : BitVec 4) (a b : BitVec 16) (d : BitVec 32) : CmdWord := op ++ a ++ b ++ d

/-- The CFG type field `b`: `b[15:9]` zero, `b[8] = speed`, `b[7:0] = order` (R64). -/
def cfgTypeField (order : BitVec 8) (speed : Speed) : BitVec 16 := 0#7 ++ bitOfSpeed speed ++ order

/-- The word of a command. -/
def encode : Instr → CmdWord
  | .nop => packWord 0x0 0 0 0
  | .cfg count order speed => packWord 0x1 count (cfgTypeField order speed) 0
  | .setpix index color => packWord 0x2 index 0 color
  | .getpix index => packWord 0x3 index 0 0
  | .fill color first count => packWord 0x4 first count color
  | .clear => packWord 0x5 0 0 0
  | .showFrame => packWord 0x6 0 0 0
  | .canshow => packWord 0x7 0 0 0
  | .numpix => packWord 0x8 0 0 0

/-! ### The opcode table -/

/-- One row of spec/opcode_table.json: "A word matches iff (word & mask) == match". -/
structure OpcodeRow where
  mnemonic : String
  pattern : CmdWord
  mask : CmdWord
deriving DecidableEq, Repr

/-- spec/opcode_table.json, in its order. -/
def opcodeTable : List OpcodeRow :=
  [⟨"NOP",     0x00000000000000000, 0xFFFFFFFFFFFFFFFFF⟩,
   ⟨"CFG",     0x10000000000000000, 0xF0000FE00FFFFFFFF⟩,
   ⟨"SETPIX",  0x20000000000000000, 0xF0000FFFF00000000⟩,
   ⟨"GETPIX",  0x30000000000000000, 0xF0000FFFFFFFFFFFF⟩,
   ⟨"FILL",    0x40000000000000000, 0xF0000000000000000⟩,
   ⟨"CLEAR",   0x50000000000000000, 0xFFFFFFFFFFFFFFFFF⟩,
   ⟨"SHOW",    0x60000000000000000, 0xFFFFFFFFFFFFFFFFF⟩,
   ⟨"CANSHOW", 0x70000000000000000, 0xFFFFFFFFFFFFFFFFF⟩,
   ⟨"NUMPIX",  0x80000000000000000, 0xFFFFFFFFFFFFFFFFF⟩]

end Sys2Proof
end

