-- ==== Sys2Proof/Machine/State.lean ====
section
/-! DEFINITION. The whole state of the block (10_state.md R10) as plain data, the reasons a step can stop, and the
state after reset (R25). -/

namespace Sys2Proof.Machine

/-- Why the machine stops with a fault. There is no constructor: "The block raises no exception, trap, fault or
abort" (60_exceptions.md R200), so no meaning can answer with a fault. Safe. -/
inductive Fault where
deriving DecidableEq, Repr

/-- Why a step has no meaning. -/
inductive Refusal where
  /-- An arm of `exec` whose instruction has no meaning yet. No arm is left that raises it. Safe. -/
  | notModelled (mnemonic : String)
  /-- A byte access at an address of `LEN` or above, which "cannot be reached" (20_memory.md R41; V4). Raised by
  `memRead` and `memWriteAll` alone, only in states no run from reset reaches. Safe. -/
  | addressOutOfRange (addr : Nat)
deriving DecidableEq, Repr

/-- What a step or a meaning answers. -/
abbrev Answer (σ : Type) := Host.Outcome σ Fault Refusal

/-- The protocol state `ST` (10_state.md R16; 42_frame_transmit.md R140). -/
inductive SeqState where
  /-- No SHOW in progress; commands are accepted. -/
  | idle
  /-- A SHOW was accepted and waits for `CanShow()`. -/
  | wait
  /-- The high part of a bit's pulse. -/
  | txh
  /-- The low part of a bit's pulse. -/
  | txl
deriving DecidableEq, Repr

/-- The response codes that are ever produced; code 3 never is (30_encoding.md R68; V7). -/
inductive RspCode where
  | ok
  | illegalCmd
  | badOrder
deriving DecidableEq, Repr

/-- What the host drives on the input ports in one tick (10_state.md R29). The MODEL's own data: inputs are not state of
the block (R26; log entry 2). -/
structure HostTick where
  /-- The `rst` port. -/
  rst : Bool
  /-- The `cmd_valid` port. -/
  cmdValid : Bool
  /-- The `cmd` port. -/
  cmd : CmdWord
  /-- Whether the host keeps presenting this command until it is accepted ("the host must keep presenting it", R29; R236). -/
  hold : Bool
deriving DecidableEq, Repr

/-- The contents of the pixel buffer: address and byte pairs in one canonical form (`Memory.wf`), addresses strictly
rising and no zero byte. An unlisted address below `LEN` holds 0x00, which is what CFG leaves there
(40_config_query.md R91). -/
abbrev Memory := List Host.Cell

/-- The state tuple of 10_state.md R10, under the spec's names, and three fields of the model's own: `par`, `draws`, `host`. -/
structure State where
  /-- The parameter record (00_scope.md R4), fixed for the life of the block (R26). Model's own field. -/
  par : Params
  /-- `N`, the pixel count (R11). -/
  n : BitVec 16
  /-- `ORDER`, the four channel offsets (R12). -/
  order : BitVec 8
  /-- `SPEED`, the speed class (R13). -/
  speed : Speed
  /-- `raw`, the pixel buffer (R15). -/
  raw : Memory
  /-- `ST`, the protocol state (R16). -/
  st : SeqState
  /-- `BYTE_PTR`, the address of the byte being sent (R17). -/
  bytePtr : Nat
  /-- `BIT_IDX`, the bit of that byte being sent (R17). -/
  bitIdx : BitVec 3
  /-- `CNT`, the ticks left in the current phase, counting the current tick (R18). -/
  cnt : Nat
  /-- `LV`: false = "never", true = `TEND` is valid (R19). -/
  lv : Bool
  /-- `TEND`, the time the last frame ended (R19). -/
  tend : Nat
  /-- `NOW`, the ticks since reset release (R20). -/
  now : Nat
  /-- `RSPV`, a response is present (R21). -/
  rspv : Bool
  /-- `RSPC`, the response code (R21). -/
  rspc : BitVec 2
  /-- `RSPD`, the response data (R21). -/
  rspd : BitVec 32
  /-- Indexes the free values; advanced by every step (log entry 4). Model's own field. -/
  draws : Nat
  /-- What the host presents on this tick and the following ones, the present tick first; after the last entry the host
  presents nothing (log entry 2). Model's own field. -/
  host : List HostTick
deriving DecidableEq, Repr

/-- The state after reset (10_state.md R25). `BYTE_PTR`, `BIT_IDX`, `CNT`, `TEND`, `RSPC`, `RSPD` are "unspecified" there: the
model names 0 for each (DESIGN CHOICE, unsafe, log entry 3). -/
def State.reset : State where
  par := Config.params
  n := 0
  order := 0x06
  speed := .standard
  raw := []
  st := .idle
  bytePtr := 0
  bitIdx := 0
  cnt := 0
  lv := false
  tend := 0
  now := 0
  rspv := false
  rspc := 0
  rspd := 0
  draws := 0
  host := []

end Sys2Proof.Machine
end

