-- ==== Sys2Proof/Machine/Ops.lean ====
section
/-! DEFINITION. The named operations: the pixel buffer, derived values, responses and time, the host's ports, reset.
The block takes no exception and has no return from one (60_exceptions.md R200), so there is no such operation. -/

namespace Sys2Proof.Machine

/-! ### Memory in canonical form -/

/-- The byte at an address; an unlisted address reads 0x00. -/
def Memory.get : Memory → Nat → Byte
  | [], _ => 0
  | (k, v) :: rest, addr => if k = addr then v else Memory.get rest addr

/-- A pair in front of a memory, left out if its byte is what an unlisted address reads as. -/
def Memory.cons (addr : Nat) (v : Byte) (rest : Memory) : Memory :=
  if v = 0 then rest else (addr, v) :: rest

/-- Writes one byte, keeping the canonical form. -/
def Memory.put : Memory → Nat → Byte → Memory
  | [], addr, v => Memory.cons addr v []
  | (k, u) :: rest, addr, v =>
    if addr < k then Memory.cons addr v ((k, u) :: rest)
    else if addr = k then Memory.cons addr v rest
    else (k, u) :: Memory.put rest addr v

/-- Writes a list of bytes, in its order. -/
def Memory.putAll (m : Memory) (ws : List Host.Cell) : Memory :=
  ws.foldl (fun acc c => Memory.put acc c.1 c.2) m

/-- The addresses rise strictly from `lo` on and no byte is zero. -/
def Memory.risesFrom : Nat → Memory → Bool
  | _, [] => true
  | lo, (k, v) :: rest => decide (lo ≤ k) && decide (v ≠ 0) && Memory.risesFrom (k + 1) rest

/-- The canonical form. -/
def Memory.wf (m : Memory) : Bool := Memory.risesFrom 0 m

/-- No pair lies at `len` or above (20_memory.md R47: bytes there are given no value). -/
def Memory.within (len : Nat) (m : Memory) : Bool := m.all fun c => decide (c.1 < len)

/-! ### Derived values (10_state.md R12, R14) -/

/-- `CH`. -/
def State.channels (s : State) : Nat := channelsOf s.order

/-- `LEN = N × CH`, exact (41_pixel_access.md R118). -/
def State.len (s : State) : Nat := s.n.toNat * s.channels

/-- The address of the first byte of pixel record `i`: `i × CH` (20_memory.md R42). -/
def State.recordBase (s : State) (i : Nat) : Nat := i * s.channels

/-- The timing parameters of the class in force. -/
def State.timing (s : State) : Timing := s.par.timing s.speed

/-- `TH(v)`: the ticks the line is high for bit value `v` (00_scope.md R8). -/
def State.highTicks (s : State) (v : Bool) : Nat := if v then s.timing.t1h else s.timing.t0h

/-- `TL(v)`: the ticks the line is low for bit value `v` (00_scope.md R8). -/
def State.lowTicks (s : State) (v : Bool) : Nat := if v then s.timing.t1l else s.timing.t0l

/-! ### The two memory primitives (20_memory.md R41) -/

/-- The byte of `raw` at an address, as data. -/
def State.byteAt (s : State) (addr : Nat) : Byte := s.raw.get addr

/-- `raw` as the spec writes it: exactly `LEN` bytes (10_state.md R15). -/
def State.rawBytes (s : State) : List Byte := (List.range s.len).map s.byteAt

/-- `MemRead(addr, 1)`, "defined iff addr < LEN". -/
def memRead (s : State) (addr : Nat) : Except Refusal Byte :=
  if addr < s.len then .ok (s.byteAt addr) else .error (.addressOutOfRange addr)

/-- Reads one byte and goes on with it. -/
def withByte (s : State) (addr : Nat) (k : Byte → Answer State) : Answer State :=
  match memRead s addr with
  | .ok v => k v
  | .error r => .refused r

/-- `s` after a list of byte writes. -/
def State.withRaw (s : State) (ws : List Host.Cell) : State := { s with raw := s.raw.putAll ws }

/-- A sequence of `MemWrite(addr, 1, v)`, each "defined iff addr < LEN"; all of it happens, or none of it. -/
def memWriteAll (s : State) (ws : List Host.Cell) : Except Refusal State :=
  match ws.find? (fun c => !decide (c.1 < s.len)) with
  | some c => .error (.addressOutOfRange c.1)
  | none => .ok (s.withRaw ws)

/-- Writes bytes and goes on with the state they leave. -/
def withWrites (s : State) (ws : List Host.Cell) (k : State → Answer State) : Answer State :=
  match memWriteAll s ws with
  | .ok t => k t
  | .error r => .refused r

/-- `CurBit() = MemRead(BYTE_PTR, 1)[BIT_IDX]`, as data: the bit the serializer is sending (00_scope.md R8). -/
def State.curBit (s : State) : Bool := (s.byteAt s.bytePtr).getLsbD s.bitIdx.toNat

/-! ### Responses and time (10_state.md R20, R21) -/

/-- The encoding of a response code (30_encoding.md R68). -/
def RspCode.bits : RspCode → BitVec 2
  | .ok => 0
  | .illegalCmd => 1
  | .badOrder => 2

/-- The end of a tick that executes `respond(code, data)` (00_scope.md R8): the response registers are loaded, and `NOW`
advances as in every tick. -/
def State.respond (s : State) (code : RspCode) (data : BitVec 32) : State :=
  { s with now := s.now + 1, rspv := true, rspc := code.bits, rspd := data, draws := s.draws + 1 }

/-- The end of a tick without a response: `RSPV <- 0`, `RSPC` and `RSPD` unspecified (R21), so free values; `NOW` advances. -/
def State.noResponse (s : State) : State :=
  { s with now := s.now + 1, rspv := false, rspc := Config.freeRspCode s.draws, rspd := Config.freeRspData s.draws,
           draws := s.draws + 1 }

/-! ### The host's ports (10_state.md R29) -/

/-- What the ports carry when the host presents nothing. -/
def HostTick.silent : HostTick := { rst := false, cmdValid := false, cmd := 0, hold := false }

/-- What the input ports carry in this tick. -/
def State.ports (s : State) : HostTick :=
  match s.host with
  | [] => HostTick.silent
  | p :: _ => p

/-- Whether the host keeps its present command for the next tick: it holds it, and the block does not accept it. -/
def State.keepsCommand (s : State) : Bool :=
  s.ports.hold && s.ports.cmdValid && !s.ports.rst && decide (s.st ≠ .idle)

/-- The host moves on to what it presents in the next tick. Nothing of the block changes. -/
def State.nextHostTick (s : State) : State :=
  if s.keepsCommand then s else { s with host := s.host.tail }

/-! ### Reset (70_reset_and_hazards.md R230) -/

/-- The reset state of the block, under the same parameters and the same host. -/
def State.afterReset (s : State) : State :=
  { State.reset with par := s.par, draws := s.draws + 1, host := s.host }

end Sys2Proof.Machine
end

