-- ==== Sys2Proof/Machine/Flags.lean ====
section
/-! DEFINITION. The block has no condition codes (10_state.md R23); its one-bit status values and its output ports
(R22) are functions of the state. -/

namespace Sys2Proof.Machine

/-- The code of a protocol state (R16). -/
def SeqState.code : SeqState → BitVec 2
  | .idle => 0
  | .wait => 1
  | .txh => 2
  | .txl => 3

/-- `CanShow()` (43_latch_timer.md R181). `TEND ≤ NOW` in every reachable state (R24(e)), so the subtraction is exact. -/
def canShow (s : State) : Bool := !s.lv || decide (s.now - s.tend ≥ s.timing.tlatch)

/-- A Boolean result, zero-extended to the response data (R184). -/
def flagData (v : Bool) : BitVec 32 := if v then 1 else 0

/-- `inert = (N = 0)` (R23). -/
def inert (s : State) : Bool := decide (s.n = 0)

/-- `dout`: 1 iff `ST = TXH`. -/
def dout (s : State) : Bool := decide (s.st = .txh)

/-- `tx_active`: 1 iff `ST` is TXH or TXL. -/
def txActive (s : State) : Bool := decide (s.st = .txh) || decide (s.st = .txl)

/-- `cmd_ready`: 1 iff `ST = IDLE`. -/
def cmdReady (s : State) : Bool := decide (s.st = .idle)

/-- `rsp_valid` = `RSPV`. -/
def rspValid (s : State) : Bool := s.rspv

/-- `rsp_code` = `RSPC`. -/
def rspCode (s : State) : BitVec 2 := s.rspc

/-- `rsp_data` = `RSPD`. -/
def rspData (s : State) : BitVec 32 := s.rspd

end Sys2Proof.Machine
end

