-- ==== Sys2Proof/Machine/ConfigQuery.lean ====
section
/-! DEFINITION. NOP, CFG, NUMPIX (40_config_query.md). A meaning is the whole transition of the tick in which the command
is accepted (R95): the next state is that of the following tick. -/

namespace Sys2Proof.Machine

/-- NOP (R90): `respond(OK, 0)`. -/
def execNop (s : State) : Answer State := .next (s.respond .ok 0)

/-- Loads the configuration of a CFG with a valid order (R91): the buffer is zero-filled if it fits, and inert if it does
not (R92). The zeroed buffer lists nothing. `LV` and `TEND` stay (R93). -/
def State.configure (s : State) (count : PixelCount) (order : BitVec 8) (speed : Speed) : State :=
  { s with n := if count.toNat * channelsOf order ≤ s.par.maxBytes then count else 0
           order := order, speed := speed, raw := [] }

/-- CFG (R91). -/
def execCfg (count : PixelCount) (order : BitVec 8) (speed : Speed) (s : State) : Answer State :=
  if validOrder order then .next ((s.configure count order speed).respond .ok 0)
  else .next (s.respond .badOrder 0)

/-- NUMPIX (R94): `respond(OK, zext_32(N))`. -/
def execNumpix (s : State) : Answer State := .next (s.respond .ok (s.n.zeroExtend 32))

end Sys2Proof.Machine
end

