-- ==== Sys2Proof/Machine/FrameTransmit.lean ====
section
/-! DEFINITION. SHOW and the sequencer, tick by tick (42_frame_transmit.md R141 to R147). -/

namespace Sys2Proof.Machine

/-- A SHOW is pending: `ST <- WAIT` (R141). -/
def State.startWait (s : State) : State := { s with st := .wait }

/-- SHOW (R141): with `N = 0` a no-op answered `OK` (R142); otherwise `ST <- WAIT`, and the answer comes at frame end. -/
def execShow (s : State) : Answer State :=
  if s.n = 0 then .next (s.respond .ok 0)
  else .next s.startWait.noResponse

/-- The high part of bit `bit` of the byte `v` at `addr` begins: position and `CNT` are loaded (R144, R146). -/
def State.startPulse (s : State) (addr : Nat) (bit : BitVec 3) (v : Byte) : State :=
  { s with st := .txh, bytePtr := addr, bitIdx := bit, cnt := s.highTicks (v.getLsbD bit.toNat) }

/-- The low part of the current bit, of value `v`, begins: `ST <- TXL`, `CNT <- TL(v)` (R145). -/
def State.startLow (s : State) (v : Bool) : State := { s with st := .txl, cnt := s.lowTicks v }

/-- `CNT <- CNT − 1` (R145, R146). -/
def State.countDown (s : State) : State := { s with cnt := s.cnt - 1 }

/-- Frame end (R147). Position and `CNT` are unspecified from here on (10_state.md R17, R18), so free values. -/
def State.endFrame (s : State) : State :=
  { s with st := .idle, lv := true, tend := s.now + 1, bytePtr := Config.freeBytePtr s.draws,
           bitIdx := Config.freeBitIdx s.draws, cnt := Config.freeCnt s.draws }

/-- `ST = WAIT` (R143, R144). -/
def waitTick (s : State) : Answer State :=
  if canShow s then withByte s 0 fun v => .next (s.startPulse 0 7 v).noResponse
  else .next s.noResponse

/-- `ST = TXH` (R145). -/
def txhTick (s : State) : Answer State :=
  if s.cnt = 1 then
    withByte s s.bytePtr fun v => .next (s.startLow (v.getLsbD s.bitIdx.toNat)).noResponse
  else .next s.countDown.noResponse

/-- `ST = TXL` (R146, R147). -/
def txlTick (s : State) : Answer State :=
  if s.cnt > 1 then .next s.countDown.noResponse
  else if s.bitIdx ≠ 0 then
    withByte s s.bytePtr fun v => .next (s.startPulse s.bytePtr (s.bitIdx - 1) v).noResponse
  else if s.bytePtr + 1 < s.len then
    withByte s (s.bytePtr + 1) fun v => .next (s.startPulse (s.bytePtr + 1) 7 v).noResponse
  else .next (s.endFrame.respond .ok 0)

end Sys2Proof.Machine
end

