-- ==== Sys2Proof/Machine/LatchTimer.lean ====
section
/-! DEFINITION. CANSHOW (43_latch_timer.md). `CanShow()` itself stands in Flags.lean. -/

namespace Sys2Proof.Machine

/-- CANSHOW (R184): `respond(OK, zext_32(CanShow()))`, evaluated at the tick of acceptance. -/
def execCanshow (s : State) : Answer State := .next (s.respond .ok (flagData (canShow s)))

end Sys2Proof.Machine
end

