-- ==== Sys2Proof/Machine/Operands.lean ====
section
/-! DEFINITION. The colour-channel extractor (41_pixel_access.md R110 to R112): how a colour operand is split, where its
channels go, and how a pixel record is read back. -/

namespace Sys2Proof.Machine

/-- The four channels of a colour. -/
structure Channels where
  w : Byte
  r : Byte
  g : Byte
  b : Byte
deriving DecidableEq, Repr

/-- `Extract(color)` (R110). -/
def extract (color : Color) : Channels where
  w := color.extractLsb' 24 8
  r := color.extractLsb' 16 8
  g := color.extractLsb' 8 8
  b := color.extractLsb' 0 8

/-- `pack(r, g, b, w) = {w, r, g, b}` (30_encoding.md R63). -/
def pack (c : Channels) : Color := c.w ++ c.r ++ c.g ++ c.b

/-- The byte writes of `Place(i, color)` (R111), in its order; the white byte only when `CH = 4`. -/
def placeWrites (s : State) (i : Nat) (color : Color) : List Host.Cell :=
  let base := s.recordBase i
  let c := extract color
  [(base + roffOf s.order, c.r), (base + goffOf s.order, c.g), (base + boffOf s.order, c.b)] ++
    (if s.channels = 4 then [(base + woffOf s.order, c.w)] else [])

/-- The byte writes of `Place` for every pixel of `[first, last)`, in rising order (R115). -/
def fillWrites (s : State) (first last : Nat) (color : Color) : List Host.Cell :=
  (List.range' first (last - first)).flatMap fun i => placeWrites s i color

/-- The byte writes of CLEAR: 0x00 to every address of `[0, LEN)` (R116). -/
def clearWrites (s : State) : List Host.Cell := (List.range s.len).map fun addr => (addr, 0)

/-- Where a FILL of `count` pixels from `first` ends (R115): the buffer's end for `count = 0`, else clipped to it. The sum is
exact, no 16-bit wrap (R118). -/
def fillEnd (s : State) (first count : PixelCount) : Nat :=
  if count = 0 then s.n.toNat else min (first.toNat + count.toNat) s.n.toNat

/-- `Unpack(i)` (R112), handed to `k`: the white field is 0 when `CH = 3`. -/
def withPixel (s : State) (i : Nat) (k : Color → Answer State) : Answer State :=
  let base := s.recordBase i
  withByte s (base + roffOf s.order) fun r =>
  withByte s (base + goffOf s.order) fun g =>
  withByte s (base + boffOf s.order) fun b =>
  if s.channels = 4 then withByte s (base + woffOf s.order) fun w => k (pack { w := w, r := r, g := g, b := b })
  else k (pack { w := 0, r := r, g := g, b := b })

end Sys2Proof.Machine
end

