-- ==== Sys2Proof/Machine/PixelAccess.lean ====
section
/-! DEFINITION. SETPIX, GETPIX, FILL, CLEAR (41_pixel_access.md). -/

namespace Sys2Proof.Machine

/-- SETPIX (R113). -/
def execSetpix (index : PixelCount) (color : Color) (s : State) : Answer State :=
  if index.toNat < s.n.toNat then
    withWrites s (placeWrites s index.toNat color) fun t => .next (t.respond .ok 0)
  else .next (s.respond .ok 0)

/-- GETPIX (R114). -/
def execGetpix (index : PixelCount) (s : State) : Answer State :=
  if index.toNat < s.n.toNat then withPixel s index.toNat fun c => .next (s.respond .ok c)
  else .next (s.respond .ok 0)

/-- FILL (R115). -/
def execFill (color : Color) (first count : PixelCount) (s : State) : Answer State :=
  if first.toNat < s.n.toNat then
    withWrites s (fillWrites s first.toNat (fillEnd s first count) color) fun t => .next (t.respond .ok 0)
  else .next (s.respond .ok 0)

/-- CLEAR (R116). -/
def execClear (s : State) : Answer State :=
  withWrites s (clearWrites s) fun t => .next (t.respond .ok 0)

end Sys2Proof.Machine
end

