-- ==== Sys2Proof/Machine/Dispatch.lean ====
section
/-! DEFINITION. One arm per command; each calls the meaning of its own. -/

namespace Sys2Proof.Machine

-- What an accepted command does in the tick it is accepted (40_config_query.md R95).
def exec (i : Instr) (s : State) : Host.Outcome State Fault Refusal :=
  match i with
  | .nop => Sys2Proof.Machine.execNop s
  | .cfg count order speed => Sys2Proof.Machine.execCfg count order speed s
  | .setpix index color => Sys2Proof.Machine.execSetpix index color s
  | .getpix index => Sys2Proof.Machine.execGetpix index s
  | .fill color first count => Sys2Proof.Machine.execFill color first count s
  | .clear => Sys2Proof.Machine.execClear s
  | .showFrame => Sys2Proof.Machine.execShow s
  | .canshow => Sys2Proof.Machine.execCanshow s
  | .numpix => Sys2Proof.Machine.execNumpix s

end Sys2Proof.Machine
end

