-- ==== Sys2Proof/Machine/Tick.lean ====
section
/-! DEFINITION. One tick of the block (10_state.md R10; the transition in one place, 42_frame_transmit.md section 7). -/

namespace Sys2Proof.Machine

/-- The transition of a tick in which word `w` is accepted (40_config_query.md R95): an illegal word is answered `ILLEGAL_CMD`
and changes nothing else (30_encoding.md R66); a legal one runs. -/
def acceptWord (w : CmdWord) (s : State) : Answer State :=
  match decode w with
  | .ok i => exec i s
  | .error _ => .next (s.respond .illegalCmd 0)

/-- `ST = IDLE`: a presented word is accepted; without one, only time passes. -/
def idleTick (p : HostTick) (s : State) : Answer State :=
  if p.cmdValid then acceptWord p.cmd s else .next s.noResponse

/-- One tick: `rst` wins (70_reset_and_hazards.md R230); otherwise the state decides, and only IDLE reads the command port. -/
def tick (s : State) : Answer State :=
  let t := s.nextHostTick
  if s.ports.rst then .next t.afterReset
  else
    match s.st with
    | .idle => idleTick s.ports t
    | .wait => waitTick t
    | .txh => txhTick t
    | .txl => txlTick t

end Sys2Proof.Machine
end

