-- ==== Sys2Proof/Machine/Step.lean ====
section
/-! DEFINITION. One step is one tick, and how the host places a command. -/

namespace Sys2Proof.Machine

/-- One step of the machine: one tick (10_state.md R10). -/
def step (s : State) : Host.Outcome State Fault Refusal := tick s

/-- `s` with the command word `w` presented in this tick and a port that is ready for it (`ST = IDLE`), so that the very next step
accepts it (40_config_query.md R95(a); log entry 6). The bits above `nbits` are zero. What the host would have presented follows after. -/
def State.withFetchWord (s : State) (nbits w : Nat) : State :=
  { s with st := .idle
           host := { rst := false, cmdValid := true, cmd := BitVec.ofNat 68 (w % 2 ^ nbits), hold := true } :: s.host }

end Sys2Proof.Machine
end

