-- ==== Sys2Proof/Safety.lean ====
section
/-! DEFINITION. The words claims are made in: what a transition leaves unchanged, what an answer is, the invariant of
10_state.md R24, runs of ticks, and the tick numbers of a frame (42_frame_transmit.md R151, R152). -/

namespace Sys2Proof.Machine

/-! ### Answers and frames -/

/-- The response registers hold this response (10_state.md R21). -/
def Answers (t : State) (code : RspCode) (data : BitVec 32) : Prop :=
  t.rspv = true ∧ t.rspc = code.bits ∧ t.rspd = data

/-- The configuration registers are as before. -/
structure SameConfig (s t : State) : Prop where
  n : t.n = s.n
  order : t.order = s.order
  speed : t.speed = s.speed

/-- The sequencer's working registers are as before. -/
structure SamePosition (s t : State) : Prop where
  bytePtr : t.bytePtr = s.bytePtr
  bitIdx : t.bitIdx = s.bitIdx
  cnt : t.cnt = s.cnt

/-- The latch timer is as before. -/
structure SameLatch (s t : State) : Prop where
  lv : t.lv = s.lv
  tend : t.tend = s.tend

/-- The parameters and what the host will present are as before. -/
structure SameSurroundings (s t : State) : Prop where
  par : t.par = s.par
  host : t.host = s.host

/-- Every byte of the buffer reads as before. -/
def SameBytes (s t : State) : Prop := ∀ addr, t.byteAt addr = s.byteAt addr

/-- Every register but the response registers is as before, and `NOW` has advanced by one tick. -/
structure KeepsRegisters (s t : State) : Prop where
  config : SameConfig s t
  st : t.st = s.st
  position : SamePosition s t
  latch : SameLatch s t
  surroundings : SameSurroundings s t
  now : t.now = s.now + 1

/-- The record of pixel `i` holds colour `c`: each channel byte at its mapped offset (20_memory.md R42), the white byte only
where the buffer has one. -/
structure HoldsColor (t : State) (i : Nat) (c : Color) : Prop where
  red : t.byteAt (t.recordBase i + roffOf t.order) = c.extractLsb' 16 8
  green : t.byteAt (t.recordBase i + goffOf t.order) = c.extractLsb' 8 8
  blue : t.byteAt (t.recordBase i + boffOf t.order) = c.extractLsb' 0 8
  white : t.channels = 4 → t.byteAt (t.recordBase i + woffOf t.order) = c.extractLsb' 24 8

/-! ### The invariant (10_state.md R24) -/

/-- R24 (a) to (e), and the canonical form of the memory. R24(f) is about a step and is stated as such. -/
structure Inv (s : State) : Prop where
  /-- R24(a): `LEN ≤ MAX_BYTES`. -/
  len_le : s.len ≤ s.par.maxBytes
  /-- The memory is in canonical form. -/
  raw_wf : s.raw.wf = true
  /-- R24(a): `raw` has `LEN` bytes, so nothing is stored at `LEN` or above. -/
  raw_within : s.raw.within s.len = true
  /-- R24(b). -/
  order_valid : validOrder s.order = true
  /-- R24(c). -/
  busy_pixels : s.st ≠ .idle → 1 ≤ s.n.toNat
  /-- R24(d): the byte being sent exists. -/
  tx_addr : txActive s = true → s.bytePtr < s.len
  /-- R24(d): a phase has a tick left. -/
  tx_cnt : txActive s = true → 1 ≤ s.cnt
  /-- R24(d) in TXH. -/
  high_cnt : s.st = .txh → s.cnt ≤ s.highTicks s.curBit
  /-- R24(d) in TXL. -/
  low_cnt : s.st = .txl → s.cnt ≤ s.lowTicks s.curBit
  /-- R24(e). -/
  latch_past : s.lv = true → s.tend ≤ s.now

/-! ### What the host presents -/

/-- `s` with one more tick of the host put before the others. -/
def State.presents (s : State) (p : HostTick) : State := { s with host := p :: s.host }

/-- The host presents a word in one tick only. -/
def HostTick.once (w : CmdWord) : HostTick := { rst := false, cmdValid := true, cmd := w, hold := false }

/-- The host presents a word until it is accepted. -/
def HostTick.held (w : CmdWord) : HostTick := { rst := false, cmdValid := true, cmd := w, hold := true }

/-- The host never raises `rst` from this tick on. -/
def HostKeepsResetLow (s : State) : Prop := ∀ p ∈ s.host, p.rst = false

/-- A word is accepted in this tick (10_state.md R29; 70_reset_and_hazards.md R230). -/
def Accepts (s : State) (w : CmdWord) : Prop :=
  s.ports.rst = false ∧ s.st = .idle ∧ s.ports.cmdValid = true ∧ s.ports.cmd = w

/-- A word is illegal by the text of 30_encoding.md R66 and the formats of R61: a reserved opcode, or a bit of 1 where the
opcode's format says zero. -/
def IllegalWord (w : CmdWord) : Prop :=
  let op := (w.extractLsb' 64 4).toNat
  let a := w.extractLsb' 48 16
  let b := w.extractLsb' 32 16
  let d := w.extractLsb' 0 32
  9 ≤ op ∨
  ((op = 0 ∨ op = 5 ∨ op = 6 ∨ op = 7 ∨ op = 8) ∧ (a ≠ 0 ∨ b ≠ 0 ∨ d ≠ 0)) ∨
  (op = 1 ∧ (b.extractLsb' 9 7 ≠ 0 ∨ d ≠ 0)) ∨
  (op = 2 ∧ b ≠ 0) ∨
  (op = 3 ∧ (b ≠ 0 ∨ d ≠ 0))

/-- The table of order codes of 30_encoding.md R65: code, `WOFF`, `ROFF`, `GOFF`, `BOFF`. -/
def orderCodes3 : List (BitVec 8 × Nat × Nat × Nat × Nat) :=
  [(0x06, 0, 0, 1, 2), (0x09, 0, 0, 2, 1), (0x52, 1, 1, 0, 2),
   (0xA1, 2, 2, 0, 1), (0x58, 1, 1, 2, 0), (0xA4, 2, 2, 1, 0)]

/-- The four-channel codes of the same table. -/
def orderCodes4 : List (BitVec 8 × Nat × Nat × Nat × Nat) :=
  [(0x1B, 0, 1, 2, 3), (0x1E, 0, 1, 3, 2), (0x27, 0, 2, 1, 3), (0x36, 0, 3, 1, 2),
   (0x2D, 0, 2, 3, 1), (0x39, 0, 3, 2, 1), (0x4B, 1, 0, 2, 3), (0x4E, 1, 0, 3, 2),
   (0x87, 2, 0, 1, 3), (0xC6, 3, 0, 1, 2), (0x8D, 2, 0, 3, 1), (0xC9, 3, 0, 2, 1),
   (0x63, 1, 2, 0, 3), (0x72, 1, 3, 0, 2), (0x93, 2, 1, 0, 3), (0xD2, 3, 1, 0, 2),
   (0xB1, 2, 3, 0, 1), (0xE1, 3, 2, 0, 1), (0x6C, 1, 2, 3, 0), (0x78, 1, 3, 2, 0),
   (0x9C, 2, 1, 3, 0), (0xD8, 3, 1, 2, 0), (0xB4, 2, 3, 1, 0), (0xE4, 3, 2, 1, 0)]

/-! ### Runs and the ticks of a frame -/

/-- `k` ticks, stopping at the first that answers no next state. -/
def runTicks : Nat → State → Answer State
  | 0, s => .next s
  | k + 1, s =>
    match step s with
    | .next t => runTicks k t
    | .fault r => .fault r
    | .refused r => .refused r

/-- Bit `j` of the frame: `raw[j div 8][7 − (j mod 8)]` (30_encoding.md R70). -/
def State.frameBit (s : State) (j : Nat) : Bool := (s.byteAt (j / 8)).getLsbD (7 - j % 8)

/-- `F = 8 × LEN × TBIT[SPEED]`, the length of a frame in ticks (R152). -/
def State.frameTicks (s : State) : Nat := 8 * s.len * s.timing.tbit

/-- `w` of R152 for a SHOW accepted in this tick: the index of the last WAIT tick. -/
def State.lastWaitTick (s : State) : Nat :=
  if s.lv then max (s.now + 1) (s.tend + s.timing.tlatch) else s.now + 1

/-- An effective SHOW is accepted in this tick: `N ≥ 1` (R141). -/
def AcceptsShow (s : State) : Prop := Accepts s (encode .showFrame) ∧ s.n ≠ 0

/-- The transition out of this state is the frame end: the last low tick of bit 0 of byte `LEN − 1` (R146, R147). -/
def AtFrameEnd (s : State) : Prop := s.st = .txl ∧ s.cnt = 1 ∧ s.bitIdx = 0 ∧ s.len ≤ s.bytePtr + 1

end Sys2Proof.Machine
end

