-- ==== Sys2Proof/Certificates/Slice0/Obligations.lean ====
section
/-! DEFINITION. The statements for the provers. Each docstring names the rule of spec/ it formalises, or the sections it rests on. -/

open Sys2Proof Sys2Proof.Machine

/-! ### Encodings (30_encoding.md) -/

/-- O1. The decoder reads back every command from its word, with every operand at every value the encoding admits
(30_encoding.md sections 1, 2). -/
def Obligations.DecodeOfEncodeIsIdentity : Prop := ∀ i : Instr, decode (encode i) = .ok i

/-- O2. Every legal word is the word of the one command it decodes to, so no bit of a legal word is dropped. -/
def Obligations.EncodeOfDecodeIsIdentity : Prop :=
  ∀ (w : CmdWord) (i : Instr), decode w = .ok i → encode i = w

/-- O3. R66: which words are illegal (`IllegalWord` spells R61 and R66 out), and what an accepted illegal word does. -/
def Obligations.IllegalWordsAreAnsweredIllegalCmd : Prop :=
  (∀ w : CmdWord, (∃ e, decode w = .error e) ↔ IllegalWord w) ∧
  ∀ (s : State) (w : CmdWord), Accepts s w → IllegalWord w →
    ∃ t, step s = .next t ∧ Answers t .illegalCmd 0 ∧ KeepsRegisters s.nextHostTick t ∧ SameBytes s t

/-- O4. The decoder and the opcode table agree: a word matches a row, (word & mask) == match, exactly if it decodes to a command of
that row's mnemonic. -/
def Obligations.DecodeAgreesWithOpcodeTable : Prop :=
  ∀ (w : CmdWord) (row : OpcodeRow), row ∈ opcodeTable →
    (w &&& row.mask = row.pattern ↔ ∃ i, decode w = .ok i ∧ i.mnemonic = row.mnemonic)

/-- O5. The worked encodings of 30_encoding.md section 6 decode to the commands they stand for. -/
def Obligations.WorkedEncodingsDecode : Prop :=
  decode 0x00000000000000000 = .ok .nop ∧
  decode 0x10002005200000000 = .ok (.cfg 2 0x52 .standard) ∧
  decode 0x1003C01D200000000 = .ok (.cfg 60 0xD2 .slow) ∧
  decode 0x20001000000FF8000 = .ok (.setpix 1 0x00FF8000) ∧
  decode 0x30001000000000000 = .ok (.getpix 1) ∧
  decode 0x40002000011223344 = .ok (.fill 0x11223344 2 0) ∧
  decode 0x50000000000000000 = .ok .clear ∧
  decode 0x60000000000000000 = .ok .showFrame ∧
  decode 0x70000000000000000 = .ok .canshow ∧
  decode 0x80000000000000000 = .ok .numpix

/-- O6. R65: which order bytes are valid, by the condition and by the table, with the offsets and the channel count of each, and that
a CFG with any other byte is answered `BAD_ORDER` and changes nothing. -/
def Obligations.ValidOrderCodesAreTheTable : Prop :=
  (∀ o : BitVec 8, validOrder o = true ↔
    (woffOf o = roffOf o ∧ [roffOf o, goffOf o, boffOf o].Perm [0, 1, 2]) ∨
    (woffOf o ≠ roffOf o ∧ [roffOf o, goffOf o, boffOf o, woffOf o].Perm [0, 1, 2, 3])) ∧
  (∀ o : BitVec 8, validOrder o = true ↔ o ∈ (orderCodes3 ++ orderCodes4).map Prod.fst) ∧
  (∀ row ∈ orderCodes3 ++ orderCodes4,
    woffOf row.1 = row.2.1 ∧ roffOf row.1 = row.2.2.1 ∧ goffOf row.1 = row.2.2.2.1 ∧ boffOf row.1 = row.2.2.2.2) ∧
  (∀ row ∈ orderCodes3, channelsOf row.1 = 3) ∧ (∀ row ∈ orderCodes4, channelsOf row.1 = 4) ∧
  (∀ (s : State) (count : PixelCount) (order : BitVec 8) (speed : Speed), validOrder order = false →
    ∃ t, exec (.cfg count order speed) s = .next t ∧ Answers t .badOrder 0 ∧ KeepsRegisters s t ∧ SameBytes s t)

/-- O7. R110: `Extract` splits a colour at the canonical bit positions, and is the inverse of `pack`. -/
def Obligations.ExtractIsInverseOfPack : Prop :=
  (∀ c : Color, (extract c).w.toNat = c.toNat / 2 ^ 24 ∧ (extract c).r.toNat = c.toNat / 2 ^ 16 % 2 ^ 8 ∧
    (extract c).g.toNat = c.toNat / 2 ^ 8 % 2 ^ 8 ∧ (extract c).b.toNat = c.toNat % 2 ^ 8) ∧
  (∀ c : Color, pack (extract c) = c) ∧ (∀ ch : Channels, extract (pack ch) = ch)

/-! ### Commands: what each one answers and leaves behind (40_config_query.md, 41_pixel_access.md, 42, 43) -/

/-- O8. R90. NOP, its word, its effect in every state, and that a NOP presented while `ST ≠ IDLE` has no effect. -/
def Obligations.NopOnlyAnswersOk : Prop :=
  decode 0 = .ok .nop ∧
  (∀ s : State, ∃ t, exec .nop s = .next t ∧ Answers t .ok 0 ∧ KeepsRegisters s t ∧ SameBytes s t) ∧
  (∀ s : State, s.st ≠ .idle → step (s.presents (.once 0)) = step (s.presents .silent))

/-- O9. R91. CFG: its word; `BAD_ORDER` and nothing else for an invalid order, before any capacity check; otherwise `ORDER` and `SPEED` are loaded and
the buffer is `count × ch` zero bytes, or, over capacity, inert; what it never writes; and no other command writes `N`, `ORDER`, `SPEED`. -/
def Obligations.CfgCreatesZeroFilledBuffer : Prop :=
  (∀ (count : PixelCount) (order : BitVec 8) (speed : Speed),
    decode (0x1#4 ++ count ++ ((0#7 ++ bitOfSpeed speed) ++ order) ++ 0#32) = .ok (.cfg count order speed)) ∧
  (∀ (s : State) (count : PixelCount) (order : BitVec 8) (speed : Speed),
    ∃ t, exec (.cfg count order speed) s = .next t ∧
      if validOrder order = true then
        Answers t .ok 0 ∧ t.order = order ∧ t.speed = speed ∧
        (if count.toNat * channelsOf order ≤ s.par.maxBytes then
          t.n = count ∧ t.rawBytes = List.replicate (count.toNat * channelsOf order) 0
        else t.n = 0 ∧ t.rawBytes = []) ∧
        t.st = s.st ∧ SamePosition s t ∧ SameLatch s t ∧ SameSurroundings s t ∧ t.now = s.now + 1
      else Answers t .badOrder 0 ∧ KeepsRegisters s t ∧ SameBytes s t) ∧
  (∀ (s t : State) (i : Instr), (∀ count order speed, i ≠ .cfg count order speed) → exec i s = .next t → SameConfig s t)

/-- O10. A CFG keeps the latch timer, and `CanShow()` after it measures with the `TLATCH` of the class it loads (40_config_query.md section 3). -/
def Obligations.CfgKeepsLatchAndUsesNewClass : Prop :=
  ∀ (s : State) (count : PixelCount) (order : BitVec 8) (speed : Speed), validOrder order = true →
    ∃ t, exec (.cfg count order speed) s = .next t ∧ t.lv = s.lv ∧ t.tend = s.tend ∧
      (canShow t = true ↔ s.lv = false ∨ (s.par.timing speed).tlatch ≤ s.now + 1 - s.tend)

/-- O11. An over-capacity CFG leaves the inert state behind, answered `OK`; NUMPIX then reads 0, and the next CFG that fits leaves it
(40_config_query.md section 3; 60_exceptions.md section 2). -/
def Obligations.OverCapacityCfgIsInertUntilNextFit : Prop :=
  ∀ (s : State) (count count' : PixelCount) (order order' : BitVec 8) (speed speed' : Speed),
    validOrder order = true → validOrder order' = true →
    s.par.maxBytes < count.toNat * channelsOf order → count'.toNat * channelsOf order' ≤ s.par.maxBytes →
    ∃ t u v, exec (.cfg count order speed) s = .next t ∧ Answers t .ok 0 ∧ t.n = 0 ∧ t.order = order ∧ t.speed = speed ∧
      exec .numpix t = .next u ∧ Answers u .ok 0 ∧
      exec (.cfg count' order' speed') u = .next v ∧ Answers v .ok 0 ∧ v.n = count'

/-- O12. NUMPIX answers `N`, zero-extended, and leaves everything else (40_config_query.md section 4). -/
def Obligations.NumpixAnswersPixelCount : Prop :=
  ∀ s : State, ∃ t, exec .numpix s = .next t ∧ Answers t .ok (BitVec.ofNat 32 s.n.toNat) ∧
    KeepsRegisters s t ∧ SameBytes s t

/-- O13. R113. SETPIX: its word; in range it writes the record of its pixel and nothing else; out of range it writes nothing. The canonical form
of the memory is the model's own premise (`Inv.raw_wf`), `ORDER` valid is R24(b). -/
def Obligations.SetpixWritesOneRecord : Prop :=
  (∀ (index : PixelCount) (color : Color), decode (0x2#4 ++ index ++ 0#16 ++ color) = .ok (.setpix index color)) ∧
  (∀ (s : State) (index : PixelCount) (color : Color), validOrder s.order = true → s.raw.wf = true →
    ∃ t, exec (.setpix index color) s = .next t ∧ Answers t .ok 0 ∧ KeepsRegisters s t ∧
      if index.toNat < s.n.toNat then
        HoldsColor t index.toNat color ∧
        ∀ addr, (addr < s.recordBase index.toNat ∨ s.recordBase index.toNat + s.channels ≤ addr) →
          t.byteAt addr = s.byteAt addr
      else SameBytes s t)

/-- O14. R114. GETPIX: its word; the packed colour of the record in range, with a white field of 0 for three channels; 0 out of range;
nothing changes but the response. -/
def Obligations.GetpixReadsOneRecord : Prop :=
  (∀ index : PixelCount, decode (0x3#4 ++ index ++ 0#16 ++ 0#32) = .ok (.getpix index)) ∧
  (∀ (s : State) (index : PixelCount), validOrder s.order = true →
    ∃ t, exec (.getpix index) s = .next t ∧ KeepsRegisters s t ∧ SameBytes s t ∧
      Answers t .ok
        (if index.toNat < s.n.toNat then
          (if s.channels = 4 then s.byteAt (s.recordBase index.toNat + woffOf s.order) else 0#8) ++
          s.byteAt (s.recordBase index.toNat + roffOf s.order) ++
          s.byteAt (s.recordBase index.toNat + goffOf s.order) ++
          s.byteAt (s.recordBase index.toNat + boffOf s.order)
        else 0#32))

/-- O15. R115. FILL: its word; every record of `[first, end)` holds the colour and no other byte changes, where `end` is `N` for a count of 0 and
the exact sum clipped to `N` otherwise; `first ≥ N` writes nothing. -/
def Obligations.FillWritesClippedRange : Prop :=
  (∀ (color : Color) (first count : PixelCount), decode (0x4#4 ++ first ++ count ++ color) = .ok (.fill color first count)) ∧
  (∀ (s : State) (color : Color) (first count : PixelCount), validOrder s.order = true → s.raw.wf = true →
    ∃ t, exec (.fill color first count) s = .next t ∧ Answers t .ok 0 ∧ KeepsRegisters s t ∧
      let last := if count = 0 then s.n.toNat else min (first.toNat + count.toNat) s.n.toNat
      if first.toNat < s.n.toNat then
        (∀ i, first.toNat ≤ i → i < last → HoldsColor t i color) ∧
        ∀ addr, (addr < s.recordBase first.toNat ∨ s.recordBase last ≤ addr) → t.byteAt addr = s.byteAt addr
      else SameBytes s t)

/-- O16. CLEAR: every byte of `[0, LEN)` is 0, no other byte and no register but the response changes (41_pixel_access.md section 5). -/
def Obligations.ClearZeroesEveryByte : Prop :=
  ∀ s : State, s.raw.wf = true →
    ∃ t, exec .clear s = .next t ∧ Answers t .ok 0 ∧ KeepsRegisters s t ∧
      (∀ addr, addr < s.len → t.byteAt addr = 0) ∧ (∀ addr, s.len ≤ addr → t.byteAt addr = s.byteAt addr)

/-- O17. CLEAR and `FILL 0x00000000, 0, 0` leave the same buffer (the inference at the end of 41_pixel_access.md section 5). -/
def Obligations.ClearEqualsFillWithBlack : Prop :=
  ∀ s : State, validOrder s.order = true → s.raw.wf = true →
    ∃ t u, exec .clear s = .next t ∧ exec (.fill 0 0 0) s = .next u ∧ t.raw = u.raw

/-- O18. R142. SHOW with `N = 0` is a no-op, however the inert state was reached. -/
def Obligations.ShowInInertStateIsNoOp : Prop :=
  (∀ s : State, s.n = 0 →
    ∃ t, exec .showFrame s = .next t ∧ Answers t .ok 0 ∧ KeepsRegisters s t ∧ SameBytes s t) ∧
  (∀ (s : State) (order : BitVec 8) (speed : Speed), validOrder order = true →
    ∃ t u, exec (.cfg 0 order speed) s = .next t ∧ exec .showFrame t = .next u ∧ Answers u .ok 0 ∧
      KeepsRegisters t u ∧ SameBytes t u)

/-- O19. SHOW with `N ≥ 1`: `ST` becomes WAIT, nothing is answered yet, nothing else changes (42_frame_transmit.md section 2). -/
def Obligations.ShowWithPixelsStartsWaiting : Prop :=
  ∀ s : State, s.n ≠ 0 →
    ∃ t, exec .showFrame s = .next t ∧ t.st = .wait ∧ t.rspv = false ∧ SameConfig s t ∧ SamePosition s t ∧
      SameLatch s t ∧ SameSurroundings s t ∧ SameBytes s t ∧ t.now = s.now + 1

/-- O20. R184. CANSHOW: its word; the answer is `CanShow()` at the tick of acceptance, by its formula, whatever `N`; only the response registers
are written; presented while `ST ≠ IDLE` it has no effect. -/
def Obligations.CanshowAnswersLatchQuery : Prop :=
  decode (0x7#4 ++ 0#16 ++ 0#16 ++ 0#32) = .ok .canshow ∧
  (∀ s : State, ∃ t, exec .canshow s = .next t ∧ KeepsRegisters s t ∧ SameBytes s t ∧
    Answers t .ok (if s.lv = false ∨ s.now - s.tend ≥ (s.par.timing s.speed).tlatch then 1 else 0)) ∧
  (∀ s : State, s.st ≠ .idle → step (s.presents (.once (encode .canshow))) = step (s.presents .silent))

/-- O21. `CanShow()` turns true exactly at `TEND + TLATCH[SPEED]` and depends on neither `ST`, `N` nor `raw`; right at a frame end it is false
(43_latch_timer.md sections 1 and 3). -/
def Obligations.CanShowTurnsTrueAfterLatchInterval : Prop :=
  (∀ s : State, s.lv = false → canShow s = true) ∧
  (∀ s : State, s.lv = true → s.tend ≤ s.now → (canShow s = true ↔ s.tend + s.timing.tlatch ≤ s.now)) ∧
  (∀ s : State, s.lv = true → s.now = s.tend → canShow s = false) ∧
  (∀ (s : State) (st : SeqState) (n : BitVec 16) (raw : Memory), canShow { s with st := st, n := n, raw := raw } = canShow s)

/-- O22. Round trip: GETPIX after SETPIX of an in-range pixel returns the colour, without its white byte where the buffer has no white channel,
and GETPIX of any other pixel returns what it returned before (41_pixel_access.md section 6). -/
def Obligations.SetpixThenGetpixRoundTrip : Prop :=
  ∀ (s : State) (i j : PixelCount) (color : Color), validOrder s.order = true → s.raw.wf = true →
    i.toNat < s.n.toNat →
    ∃ t u v x, exec (.setpix i color) s = .next t ∧ exec (.getpix i) t = .next u ∧
      Answers u .ok (if s.channels = 4 then color else color &&& 0x00FFFFFF#32) ∧
      exec (.getpix j) t = .next v ∧ exec (.getpix j) s = .next x ∧ (j ≠ i → v.rspd = x.rspd)

/-- O23. In the inert state SETPIX, FILL and CLEAR change nothing and GETPIX answers 0; all answer `OK` (41_pixel_access.md section 6). -/
def Obligations.InertStateMakesBufferCommandsNoOps : Prop :=
  ∀ (s : State) (i : Instr), s.n = 0 →
    ((∃ index color, i = .setpix index color) ∨ (∃ index, i = .getpix index) ∨
      (∃ color first count, i = .fill color first count) ∨ i = .clear) →
    ∃ t, exec i s = .next t ∧ Answers t .ok 0 ∧ KeepsRegisters s t ∧ SameBytes s t

/-- O24. `Place` writes every byte of its record exactly once and no other (41_pixel_access.md section 1). -/
def Obligations.PlaceWritesEachRecordByteOnce : Prop :=
  ∀ (s : State) (i : Nat) (color : Color), validOrder s.order = true →
    ((placeWrites s i color).map Prod.fst).Perm (List.range' (s.recordBase i) s.channels)

/-! ### Frames, in every state -/

/-- O25. The frame of the commands that store nothing, NOP, GETPIX, SHOW, CANSHOW, NUMPIX, in every state: no byte of memory, no configuration
register, no position register and no latch register changes; a SHOW with `N ≠ 0` sets `ST` to WAIT, and every other of them leaves it. -/
def Obligations.FrameOfCommandsThatStoreNothing : Prop :=
  ∀ (s t : State) (i : Instr),
    (i = .nop ∨ (∃ index, i = .getpix index) ∨ i = .showFrame ∨ i = .canshow ∨ i = .numpix) →
    exec i s = .next t →
    SameConfig s t ∧ SamePosition s t ∧ SameLatch s t ∧ SameSurroundings s t ∧ SameBytes s t ∧ t.now = s.now + 1 ∧
    if i = .showFrame ∧ s.n ≠ 0 then t.st = .wait else t.st = s.st

/-- O26. The frame of SETPIX, FILL and CLEAR, in every state: only the response registers, `NOW` and the stored bytes change. The addresses stored to
are those the meanings compute. -/
def Obligations.FrameOfCommandsThatStore : Prop :=
  (∀ (s t : State) (index : PixelCount) (color : Color), exec (.setpix index color) s = .next t →
    KeepsRegisters s t ∧
    ∀ addr, (index.toNat < s.n.toNat → addr ∉ (placeWrites s index.toNat color).map Prod.fst) →
      t.byteAt addr = s.byteAt addr) ∧
  (∀ (s t : State) (color : Color) (first count : PixelCount), exec (.fill color first count) s = .next t →
    KeepsRegisters s t ∧
    ∀ addr, (first.toNat < s.n.toNat →
        addr ∉ (fillWrites s first.toNat (fillEnd s first count) color).map Prod.fst) →
      t.byteAt addr = s.byteAt addr) ∧
  (∀ s t : State, exec .clear s = .next t →
    KeepsRegisters s t ∧ ∀ addr, s.len ≤ addr → t.byteAt addr = s.byteAt addr)

/-! ### The sequencer, tick by tick (42_frame_transmit.md section 3) -/

/-- O27. R144, with the waiting tick before it: WAIT stays until `CanShow()` holds; then the frame starts at bit 7 of byte 0 with the high time of that
bit. `N ≥ 1` is R24(c). -/
def Obligations.WaitTickStartsFrameWhenReady : Prop :=
  ∀ s : State, s.st = .wait → s.ports.rst = false → 1 ≤ s.n.toNat →
    dout s = false ∧
    ∃ t, step s = .next t ∧ t.rspv = false ∧ SameConfig s t ∧ SameLatch s t ∧ SameBytes s t ∧ t.par = s.par ∧
      t.now = s.now + 1 ∧
      if canShow s = true then
        t.st = .txh ∧ t.bytePtr = 0 ∧ t.bitIdx = 7 ∧ t.cnt = s.highTicks ((s.byteAt 0).getLsbD 7)
      else t.st = .wait

/-- O28. R145: the high part of a pulse, tick by tick, and that it lasts exactly `TH(v)` ticks. -/
def Obligations.HighPhaseLastsHighTicks : Prop :=
  (∀ s : State, s.st = .txh → s.ports.rst = false → s.bytePtr < s.len →
    dout s = true ∧
    ∃ t, step s = .next t ∧ t.rspv = false ∧ SameConfig s t ∧ SameLatch s t ∧ SameBytes s t ∧ t.par = s.par ∧
      t.bytePtr = s.bytePtr ∧ t.bitIdx = s.bitIdx ∧ t.now = s.now + 1 ∧
      if s.cnt = 1 then t.st = .txl ∧ t.cnt = s.lowTicks s.curBit else t.st = .txh ∧ t.cnt = s.cnt - 1) ∧
  (∀ s : State, Inv s → HostKeepsResetLow s → s.st = .txh → s.cnt = s.highTicks s.curBit →
    (∀ k, k < s.highTicks s.curBit → ∃ t, runTicks k s = .next t ∧ t.st = .txh ∧ dout t = true) ∧
    ∃ t, runTicks (s.highTicks s.curBit) s = .next t ∧ t.st = .txl ∧ t.cnt = s.lowTicks s.curBit)

/-- O29. R146: the low part of a pulse, tick by tick, with the next bit, the next byte or the frame end after it, and that it lasts exactly `TL(v)`
ticks. -/
def Obligations.LowPhaseLastsLowTicks : Prop :=
  (∀ s : State, s.st = .txl → s.ports.rst = false → s.bytePtr < s.len → 1 ≤ s.cnt →
    dout s = false ∧
    ∃ t, step s = .next t ∧ SameConfig s t ∧ SameBytes s t ∧ t.par = s.par ∧ t.now = s.now + 1 ∧
      if 1 < s.cnt then
        t.st = .txl ∧ t.cnt = s.cnt - 1 ∧ t.bytePtr = s.bytePtr ∧ t.bitIdx = s.bitIdx ∧ SameLatch s t ∧ t.rspv = false
      else if 0 < s.bitIdx.toNat then
        t.st = .txh ∧ t.bytePtr = s.bytePtr ∧ t.bitIdx.toNat = s.bitIdx.toNat - 1 ∧
        t.cnt = s.highTicks ((s.byteAt s.bytePtr).getLsbD (s.bitIdx.toNat - 1)) ∧ SameLatch s t ∧ t.rspv = false
      else if s.bytePtr + 1 < s.len then
        t.st = .txh ∧ t.bytePtr = s.bytePtr + 1 ∧ t.bitIdx = 7 ∧
        t.cnt = s.highTicks ((s.byteAt (s.bytePtr + 1)).getLsbD 7) ∧ SameLatch s t ∧ t.rspv = false
      else t.st = .idle ∧ t.lv = true ∧ t.tend = s.now + 1 ∧ Answers t .ok 0) ∧
  (∀ s : State, Inv s → HostKeepsResetLow s → s.st = .txl → s.cnt = s.lowTicks s.curBit →
    (∀ k, k < s.lowTicks s.curBit → ∃ t, runTicks k s = .next t ∧ t.st = .txl ∧ dout t = false) ∧
    ∃ t, runTicks (s.lowTicks s.curBit) s = .next t ∧ (t.st = .txh ∨ t.st = .idle))

/-- O30. R147: the frame end, what the host then sees, and that no other tick of a frame touches the time stamp. -/
def Obligations.FrameEndStampsAndAnswers : Prop :=
  (∀ s : State, AtFrameEnd s → s.ports.rst = false →
    ∃ t, step s = .next t ∧ t.st = .idle ∧ cmdReady t = true ∧ txActive t = false ∧ t.lv = true ∧ t.tend = s.now + 1 ∧
      t.now = t.tend ∧ Answers t .ok 0 ∧ canShow t = false ∧ SameConfig s t ∧ SameBytes s t ∧ t.par = s.par) ∧
  (∀ s t : State, s.st ≠ .idle → s.ports.rst = false → t.st ≠ .idle → step s = .next t → SameLatch s t)

/-- O31. While a SHOW is in progress the block does not read the command port: a word presented for one tick changes nothing, and a word the host
holds is still there in the next tick (20_memory.md section 3; 42_frame_transmit.md sections 3 and 5; the host's list and its `hold` are the model's own,
log entry 2). -/
def Obligations.BusyBlockIgnoresCommandPort : Prop :=
  ∀ (s : State) (w : CmdWord), s.st ≠ .idle →
    step (s.presents (.once w)) = step (s.presents .silent) ∧
    ∀ t, step (s.presents .silent) = .next t →
      step (s.presents (.held w)) = .next { t with host := HostTick.held w :: s.host }

/-- O32. While a SHOW is in progress the buffer and the configuration do not change (20_memory.md section 3; 42_frame_transmit.md section 5). -/
def Obligations.BufferAndConfigConstantWhileBusy : Prop :=
  ∀ s t : State, s.st ≠ .idle → s.ports.rst = false → step s = .next t →
    SameConfig s t ∧ SameBytes s t ∧ t.rawBytes = s.rawBytes

/-- O33. R140: without `rst` the only edges between the four states are those of the cycle, each under its condition. -/
def Obligations.SequencerTakesOnlyTheCycleEdges : Prop :=
  ∀ s t : State, s.ports.rst = false → step s = .next t →
    (s.st = .idle → t.st = .idle ∨ (t.st = .wait ∧ AcceptsShow s)) ∧
    (s.st = .wait → if canShow s = true then t.st = .txh else t.st = .wait) ∧
    (s.st = .txh → t.st = .txh ∨ t.st = .txl) ∧
    (s.st = .txl → t.st = .txl ∨ t.st = .txh ∨ (t.st = .idle ∧ s.cnt ≤ 1 ∧ s.bitIdx = 0 ∧ s.len ≤ s.bytePtr + 1))

/-- O34. The waveform of a frame in closed form, at every one of its ticks (42_frame_transmit.md section 6): the position, the phase, the count and `dout`,
for a SHOW accepted in any state of the invariant, while the host keeps `rst` low. -/
def Obligations.FrameWaveformClosedForm : Prop :=
  ∀ s : State, Inv s → HostKeepsResetLow s → AcceptsShow s → ∀ k, k < s.frameTicks →
    ∃ t, runTicks (s.lastWaitTick - s.now + 1 + k) s = .next t ∧
      t.now = s.lastWaitTick + 1 + k ∧ SameConfig s t ∧ SameLatch s t ∧ SameBytes s t ∧ txActive t = true ∧
      cmdReady t = false ∧
      t.bytePtr = k / s.timing.tbit / 8 ∧ t.bitIdx.toNat = 7 - k / s.timing.tbit % 8 ∧
      if k % s.timing.tbit < s.highTicks (s.frameBit (k / s.timing.tbit)) then
        t.st = .txh ∧ dout t = true ∧
        t.cnt = s.highTicks (s.frameBit (k / s.timing.tbit)) - k % s.timing.tbit
      else t.st = .txl ∧ dout t = false ∧ t.cnt = s.timing.tbit - k % s.timing.tbit

/-- O35. The schedule of a SHOW in closed form (42_frame_transmit.md section 6; 43_latch_timer.md section 3): `w − a` WAIT ticks, between 1 and `TLATCH[SPEED]`, with
the line low; then after the frame's `F` ticks IDLE, the time stamp `s + F`, the answer, and a buffer that is what it was. The second stamp is at
least `TLATCH[SPEED] + 1 + F` after the first. -/
def Obligations.ShowCompletesOnSchedule : Prop :=
  ∀ s : State, Inv s → HostKeepsResetLow s → AcceptsShow s →
    (1 ≤ s.lastWaitTick - s.now ∧ s.lastWaitTick - s.now ≤ s.timing.tlatch) ∧
    (∀ k, 1 ≤ k → k ≤ s.lastWaitTick - s.now →
      ∃ t, runTicks k s = .next t ∧ t.st = .wait ∧ dout t = false ∧ t.now = s.now + k) ∧
    ∃ t, runTicks (s.lastWaitTick - s.now + 1 + s.frameTicks) s = .next t ∧ t.st = .idle ∧ t.lv = true ∧
      t.tend = s.lastWaitTick + 1 + s.frameTicks ∧ t.now = t.tend ∧ Answers t .ok 0 ∧ canShow t = false ∧
      SameConfig s t ∧ SameBytes s t ∧
      (s.lv = true → s.tend + s.timing.tlatch + 1 + s.frameTicks ≤ t.tend)

/-- O36. R180: the latch timer changes only at a frame end, to a later time; no command touches it. -/
def Obligations.LatchTimerMovesOnlyAtFrameEnd : Prop :=
  (∀ s t : State, s.ports.rst = false → step s = .next t →
    SameLatch s t ∨
    (s.st = .txl ∧ t.st = .idle ∧ t.lv = true ∧ t.tend = s.now + 1 ∧
      (s.lv = true → s.tend ≤ s.now → s.tend < t.tend))) ∧
  (∀ (s t : State) (i : Instr), exec i s = .next t → SameLatch s t)

/-- O37. The gap on the wire: the first high tick of a frame comes at least `TLATCH[SPEED] + 1` ticks after the previous frame's end
(43_latch_timer.md section 3). -/
def Obligations.LatchGapBeforeNextFrame : Prop :=
  ∀ s t : State, s.ports.rst = false → s.st ≠ .txh → s.st ≠ .txl → t.st = .txh → step s = .next t →
    s.lv = true → s.tend ≤ s.now → s.tend + s.timing.tlatch + 1 ≤ t.now ∧ SameLatch s t

/-! ### Time, responses, acceptance (10_state.md, 40_config_query.md section 1) -/

/-- O38. `NOW` advances by one in every tick, in every state, whatever the command input, and `rst` makes it 0 (10_state.md section 5). -/
def Obligations.TimeAdvancesEveryTick : Prop :=
  ∀ s t : State, step s = .next t → t.now = if s.ports.rst = true then 0 else s.now + 1

/-- O39. A response is present after a tick exactly if that tick accepted a word other than an effective SHOW, or ended a frame
(10_state.md section 6; 40_config_query.md section 1). -/
def Obligations.ResponseExactlyAfterCommandOrFrame : Prop :=
  ∀ s t : State, Inv s → step s = .next t →
    (t.rspv = true ↔ ((∃ w, Accepts s w) ∧ ¬ AcceptsShow s) ∨ (s.ports.rst = false ∧ AtFrameEnd s))

/-- O40. A response code of 3 is never produced (30_encoding.md section 4). -/
def Obligations.ResponseCodeThreeIsNeverProduced : Prop :=
  ∀ s t : State, step s = .next t → t.rspv = true → t.rspc ≠ 3 ∧ (t.rspc ≠ 0 → t.rspd = 0)

/-- O41. A step in which a legal word is accepted is that command's own transition, with the host's list moved on by one tick and nothing else around
it (40_config_query.md section 1; the list is the model's own, log entry 2). -/
def Obligations.StepRunsTheAcceptedCommand : Prop :=
  ∀ (s : State) (w : CmdWord) (i : Instr), Accepts s w → decode w = .ok i →
    step s = exec i { s with host := s.host.tail }

/-- O42. In IDLE with no command presented only time passes and the response goes away (10_state.md sections 5, 6). That the position registers,
unspecified in IDLE, keep their values is the model's choice (log entry 5). -/
def Obligations.IdleTickWithoutCommandOnlyPassesTime : Prop :=
  ∀ s : State, s.ports.rst = false → s.st = .idle → s.ports.cmdValid = false →
    ∃ t, step s = .next t ∧ t.rspv = false ∧ KeepsRegisters s.nextHostTick t ∧ SameBytes s t

/-- O43. The `cmd` port is not read while `cmd_valid` is 0 or `rst` is 1: the word on it makes no difference (10_state.md section 7; 70_reset_and_hazards.md section 1). -/
def Obligations.CommandWordIsIgnoredUnlessValid : Prop :=
  ∀ (s : State) (w w' : CmdWord) (rst valid hold : Bool), (valid = false ∨ rst = true) →
    step (s.presents ⟨rst, valid, w, hold⟩) = step (s.presents ⟨rst, valid, w', hold⟩)

/-- O44. R22: the outputs are these functions of the state. -/
def Obligations.OutputPortsAreFunctionsOfState : Prop :=
  ∀ s : State,
    (dout s = true ↔ s.st = .txh) ∧ (txActive s = true ↔ s.st = .txh ∨ s.st = .txl) ∧ (cmdReady s = true ↔ s.st = .idle) ∧
    (canShow s = true ↔ s.lv = false ∨ s.now - s.tend ≥ (s.par.timing s.speed).tlatch) ∧
    rspValid s = s.rspv ∧ rspCode s = s.rspc ∧ rspData s = s.rspd

/-! ### Reset (10_state.md R25, 70_reset_and_hazards.md) -/

/-- O45. R25: the reset values the spec states, and the outputs that follow. The registers it calls unspecified are not mentioned. -/
def Obligations.ResetStateHoldsTheStatedValues : Prop :=
  let s := State.reset
  s.n = 0 ∧ s.order = 0x06 ∧ s.speed = .standard ∧ s.rawBytes = [] ∧ s.st = .idle ∧ s.lv = false ∧ s.now = 0 ∧
  s.rspv = false ∧ dout s = false ∧ txActive s = false ∧ cmdReady s = true ∧ canShow s = true

/-- O46. R230: `rst` wins over everything and leads to the reset state, with no command accepted and no response; without `rst` no tick leads back to
`NOW = 0`. -/
def Obligations.ResetPinLeadsToResetState : Prop :=
  (∀ s : State, s.ports.rst = true →
    ∃ t, step s = .next t ∧ t.n = 0 ∧ t.order = 0x06 ∧ t.speed = .standard ∧ t.rawBytes = [] ∧ t.st = .idle ∧
      t.lv = false ∧ t.now = 0 ∧ t.rspv = false ∧ t.par = s.par) ∧
  (∀ s t : State, s.ports.rst = false → step s = .next t → t.now ≠ 0)

/-- O47. What the host sees right after reset, under every parameter record (70_reset_and_hazards.md section 1). -/
def Obligations.QueriesAfterResetSeeInertBlock : Prop :=
  ∀ p : Params, let s : State := { State.reset with par := p }
    (∃ t, exec .numpix s = .next t ∧ Answers t .ok 0) ∧
    (∀ index, ∃ t, exec (.getpix index) s = .next t ∧ Answers t .ok 0) ∧
    (∃ t, exec .canshow s = .next t ∧ Answers t .ok 1) ∧
    (∃ t, exec .showFrame s = .next t ∧ Answers t .ok 0 ∧ t.st = .idle)

/-! ### Whole-machine properties -/

/-- O48. The invariant of 10_state.md R24 holds right after reset, under every parameter record and every host. -/
def Obligations.InvariantHoldsAtReset : Prop :=
  ∀ (p : Params) (host : List HostTick), Inv { State.reset with par := p, host := host }

/-- O49. Every step keeps the invariant of 10_state.md R24, from every state that meets it. -/
def Obligations.EveryStepKeepsInvariant : Prop := ∀ s t : State, Inv s → step s = .next t → Inv t

/-- O50. The block never stops: from every state of the invariant every step answers a next state, whatever the host presents
(60_exceptions.md section 1; 20_memory.md section 1: no access is out of range). -/
def Obligations.BlockNeverStops : Prop := ∀ s : State, Inv s → ∃ t, step s = .next t

/-- O51. Every step keeps the canonical form of the memory, in every state; and none changes the parameter record (10_state.md section 8). -/
def Obligations.EveryStepKeepsCanonicalMemory : Prop :=
  ∀ s t : State, step s = .next t → (s.raw.wf = true → t.raw.wf = true) ∧ t.par = s.par

/-- O52. The two memory primitives are defined exactly below `LEN`; elsewhere they are refused. A write that is defined changes its byte and
nothing else (20_memory.md section 1; the canonical form is the model's own premise). -/
def Obligations.ByteAccessOutsideBufferIsRefused : Prop :=
  (∀ (s : State) (addr : Nat),
    memRead s addr = if addr < s.len then .ok (s.byteAt addr) else .error (.addressOutOfRange addr)) ∧
  (∀ (s : State) (addr : Nat) (v : Byte), s.len ≤ addr → memWriteAll s [(addr, v)] = .error (.addressOutOfRange addr)) ∧
  (∀ (s : State) (addr : Nat) (v : Byte), addr < s.len →
    ∃ t, memWriteAll s [(addr, v)] = .ok t ∧ t = { s with raw := t.raw } ∧
      (s.raw.wf = true → t.byteAt addr = v) ∧ ∀ x, x ≠ addr → t.byteAt x = s.byteAt x)

/-- O53. Only an accepted CFG changes `N`, `ORDER` or `SPEED`, and only SETPIX, FILL, CLEAR or CFG changes a byte, over whole ticks
(10_state.md section 1; 40_config_query.md section 3). -/
def Obligations.OnlyBufferCommandsChangeTheBuffer : Prop :=
  ∀ s t : State, s.ports.rst = false → step s = .next t →
    (SameConfig s t ∨ ∃ w count order speed, Accepts s w ∧ decode w = .ok (.cfg count order speed)) ∧
    (SameBytes s t ∨ ∃ w i, Accepts s w ∧ decode w = .ok i ∧
      ((∃ count order speed, i = .cfg count order speed) ∨ (∃ index color, i = .setpix index color) ∨
        (∃ color first count, i = .fill color first count) ∨ i = .clear))
end

