-- ==== Sys2Proof/Laws/Decode.lean ====
section
/-! SUPPORT. The fields of a packed word, and what the decoder's helpers answer. -/

namespace Sys2Proof

/-- Bit `i` of a packed word, field by field (30_encoding.md R60). -/
theorem getLsbD_packWord (op : BitVec 4) (a b : BitVec 16) (d : BitVec 32) (i : Nat) :
    (packWord op a b d).getLsbD i =
      if i < 32 then d.getLsbD i else if i < 48 then b.getLsbD (i - 32)
      else if i < 64 then a.getLsbD (i - 48) else op.getLsbD (i - 64) := by
  rw [show (packWord op a b d).getLsbD i = ((op ++ a ++ b ++ d : BitVec (4 + 16 + 16 + 32))).getLsbD i from rfl,
    BitVec.getLsbD_append, BitVec.getLsbD_append, BitVec.getLsbD_append]
  simp only [Nat.sub_sub]
  split_ifs <;> first | rfl | omega

@[simp] theorem opField_packWord (op : BitVec 4) (a b : BitVec 16) (d : BitVec 32) : opField (packWord op a b d) = op := by
  apply BitVec.eq_of_getLsbD_eq
  intro i hi
  simp [opField, getLsbD_packWord, hi, show ¬ 64 + i < 32 by omega, show ¬ 64 + i < 48 by omega]

@[simp] theorem aField_packWord (op : BitVec 4) (a b : BitVec 16) (d : BitVec 32) : aField (packWord op a b d) = a := by
  apply BitVec.eq_of_getLsbD_eq
  intro i hi
  simp [aField, getLsbD_packWord, hi, show ¬ 48 + i < 32 by omega, show 48 + i < 64 by omega]

@[simp] theorem bField_packWord (op : BitVec 4) (a b : BitVec 16) (d : BitVec 32) : bField (packWord op a b d) = b := by
  apply BitVec.eq_of_getLsbD_eq
  intro i hi
  simp [bField, getLsbD_packWord, hi, show 32 + i < 48 by omega]

@[simp] theorem dField_packWord (op : BitVec 4) (a b : BitVec 16) (d : BitVec 32) : dField (packWord op a b d) = d := by
  apply BitVec.eq_of_getLsbD_eq
  intro i hi
  simp [dField, getLsbD_packWord, hi]

/-- A word is its four fields. -/
theorem packWord_fields (w : CmdWord) : packWord (opField w) (aField w) (bField w) (dField w) = w := by
  apply BitVec.eq_of_getLsbD_eq
  intro i hi
  simp only [getLsbD_packWord, opField, aField, bField, dField, BitVec.getLsbD_extractLsb']
  split_ifs with h1 h2 h3
  · simp [h1]
  · simp [show i - 32 < 16 by omega, show 32 + (i - 32) = i by omega]
  · simp [show i - 48 < 16 by omega, show 48 + (i - 48) = i by omega]
  · simp [show i - 64 < 4 by omega, show 64 + (i - 64) = i by omega]

/-- Masking a packed word masks its fields. -/
theorem packWord_and (op op' : BitVec 4) (a a' b b' : BitVec 16) (d d' : BitVec 32) :
    packWord op a b d &&& packWord op' a' b' d' = packWord (op &&& op') (a &&& a') (b &&& b') (d &&& d') := by
  apply BitVec.eq_of_getLsbD_eq
  intro i hi
  simp only [BitVec.getLsbD_and, getLsbD_packWord]
  split_ifs <;> rfl

theorem packWord_inj {op op' : BitVec 4} {a a' b b' : BitVec 16} {d d' : BitVec 32}
    (h : packWord op a b d = packWord op' a' b' d') : op = op' ∧ a = a' ∧ b = b' ∧ d = d' :=
  ⟨by simpa using congrArg opField h, by simpa using congrArg aField h, by simpa using congrArg bField h,
   by simpa using congrArg dField h⟩

@[simp] theorem speedOfBit_bitOfSpeed (c : Speed) : speedOfBit (bitOfSpeed c) = c := by cases c <;> decide

@[simp] theorem bitOfSpeed_speedOfBit (v : BitVec 1) : bitOfSpeed (speedOfBit v) = v := by revert v; decide

/-- Bit `i` of a CFG type field (R64). -/
theorem getLsbD_cfgTypeField (order : BitVec 8) (speed : Speed) (i : Nat) :
    (cfgTypeField order speed).getLsbD i =
      if i < 8 then order.getLsbD i else if i < 9 then (bitOfSpeed speed).getLsbD (i - 8) else false := by
  rw [show (cfgTypeField order speed).getLsbD i = ((0#7 ++ bitOfSpeed speed ++ order : BitVec (7 + 1 + 8))).getLsbD i from rfl,
    BitVec.getLsbD_append, BitVec.getLsbD_append]
  split_ifs <;> first | rfl | omega | simp

@[simp] theorem cfgTypeField_order (order : BitVec 8) (speed : Speed) :
    (cfgTypeField order speed).extractLsb' 0 8 = order := by
  apply BitVec.eq_of_getLsbD_eq
  intro i hi
  simp [getLsbD_cfgTypeField, hi]

@[simp] theorem cfgTypeField_speed (order : BitVec 8) (speed : Speed) :
    (cfgTypeField order speed).extractLsb' 8 1 = bitOfSpeed speed := by
  apply BitVec.eq_of_getLsbD_eq
  intro i hi
  simp [getLsbD_cfgTypeField, hi, show 8 + i < 9 by omega]

@[simp] theorem cfgTypeField_zeros (order : BitVec 8) (speed : Speed) :
    (cfgTypeField order speed).extractLsb' 9 7 = 0 := by
  apply BitVec.eq_of_getLsbD_eq
  intro i hi
  simp [getLsbD_cfgTypeField, show ¬ 9 + i < 8 by omega]

/-- A CFG type field with `b[15:9]` zero is its order and speed. -/
theorem cfgTypeField_eq {b : BitVec 16} (h : b.extractLsb' 9 7 = 0) :
    cfgTypeField (b.extractLsb' 0 8) (speedOfBit (b.extractLsb' 8 1)) = b := by
  apply BitVec.eq_of_getLsbD_eq
  intro i hi
  simp only [getLsbD_cfgTypeField, bitOfSpeed_speedOfBit, BitVec.getLsbD_extractLsb']
  split_ifs with h1 h2
  · simp [h1]
  · simp [show i - 8 < 1 by omega, show 8 + (i - 8) = i by omega]
  · have := congrArg (fun v => v.getLsbD (i - 9)) h
    simpa [show i - 9 < 7 by omega, show 9 + (i - 9) = i by omega] using this.symm

/-- Masking a CFG type field with its must-be-zero bits leaves nothing. -/
theorem cfgTypeField_and_mbz (order : BitVec 8) (speed : Speed) : cfgTypeField order speed &&& 0xFE00#16 = 0#16 := by
  cases speed <;> revert order <;> decide

theorem requireZero_ok {n : Nat} {field : CmdField} {v : BitVec n} {k : Except DecodeError Instr} {i : Instr} :
    requireZero field v k = .ok i ↔ v = 0 ∧ k = .ok i := by
  unfold requireZero
  by_cases h : v = 0
  · rw [if_pos h]; exact ⟨fun hk => ⟨h, hk⟩, fun hk => hk.2⟩
  · rw [if_neg h]; exact ⟨fun hk => (by cases hk), fun hk => absurd hk.1 h⟩

theorem decodeZ_ok {w : CmdWord} {i j : Instr} :
    decodeZ w i = .ok j ↔ aField w = 0 ∧ bField w = 0 ∧ dField w = 0 ∧ i = j := by
  simp only [decodeZ, requireZero_ok, Except.ok.injEq]

end Sys2Proof
end

