-- ==== Sys2Proof/Laws/Memory.lean ====
section
/-! SUPPORT. The memory: canonical form is kept, a read after a write gives the value written and leaves every other place
alone, and two canonical memories with the same bytes are the same data. -/

namespace Sys2Proof.Machine

theorem Memory.risesFrom_mono {lo lo' : Nat} {m : Memory} (hm : Memory.risesFrom lo m = true) (h : lo' ≤ lo) :
    Memory.risesFrom lo' m = true := by
  cases m with
  | nil => rfl
  | cons c rest =>
    simp only [Memory.risesFrom, Bool.and_eq_true, decide_eq_true_eq] at hm ⊢
    exact ⟨⟨by omega, hm.1.2⟩, hm.2⟩

theorem Memory.get_below {lo : Nat} {m : Memory} (hm : Memory.risesFrom lo m = true) {addr : Nat} (h : addr < lo) :
    Memory.get m addr = 0 := by
  induction m generalizing lo with
  | nil => rfl
  | cons c rest ih =>
    simp only [Memory.risesFrom, Bool.and_eq_true, decide_eq_true_eq] at hm
    rw [Memory.get, if_neg (by omega)]
    exact ih hm.2 (by omega)

theorem Memory.risesFrom_cons {lo addr : Nat} {v : Byte} {rest : Memory} (h : lo ≤ addr)
    (hr : Memory.risesFrom (addr + 1) rest = true) : Memory.risesFrom lo (Memory.cons addr v rest) = true := by
  unfold Memory.cons
  split
  · exact Memory.risesFrom_mono hr (by omega)
  · simp only [Memory.risesFrom, Bool.and_eq_true, decide_eq_true_eq]
    exact ⟨⟨h, ‹_›⟩, hr⟩

theorem Memory.get_cons {addr : Nat} {v : Byte} {rest : Memory} (hr : Memory.get rest addr = 0) (x : Nat) :
    Memory.get (Memory.cons addr v rest) x = if x = addr then v else Memory.get rest x := by
  unfold Memory.cons
  by_cases hv : v = 0 <;> by_cases hx : x = addr
  · simp only [hv, hx, if_true]; exact hr
  · simp only [hv, hx, if_true, if_false]
  · simp only [hv, hx, if_false, if_true, Memory.get]
  · simp only [hv, hx, if_false, Memory.get, Ne.symm hx]

theorem Memory.put_risesFrom {lo addr : Nat} {v : Byte} {m : Memory} (hm : Memory.risesFrom lo m = true)
    (h : lo ≤ addr) : Memory.risesFrom lo (Memory.put m addr v) = true := by
  induction m generalizing lo with
  | nil => exact Memory.risesFrom_cons h rfl
  | cons c rest ih =>
    obtain ⟨k, u⟩ := c
    have hm' := hm
    simp only [Memory.risesFrom, Bool.and_eq_true, decide_eq_true_eq] at hm
    unfold Memory.put
    split_ifs with h1 h2
    · refine Memory.risesFrom_cons h ?_
      simp only [Memory.risesFrom, Bool.and_eq_true, decide_eq_true_eq]
      exact ⟨⟨h1, hm.1.2⟩, hm.2⟩
    · exact Memory.risesFrom_cons h (h2 ▸ hm.2)
    · simp only [Memory.risesFrom, Bool.and_eq_true, decide_eq_true_eq]
      exact ⟨hm.1, ih hm.2 (by omega)⟩

theorem Memory.get_put_from {lo addr : Nat} {v : Byte} {m : Memory} (hm : Memory.risesFrom lo m = true) (x : Nat) :
    Memory.get (Memory.put m addr v) x = if x = addr then v else Memory.get m x := by
  induction m generalizing lo with
  | nil => exact Memory.get_cons rfl x
  | cons c rest ih =>
    obtain ⟨k, u⟩ := c
    simp only [Memory.risesFrom, Bool.and_eq_true, decide_eq_true_eq] at hm
    have hrest (y : Nat) (hy : y < k + 1) : Memory.get rest y = 0 := Memory.get_below hm.2 hy
    unfold Memory.put
    split_ifs with h1 h2 h3 h4
    · rw [Memory.get_cons (by rw [Memory.get, if_neg (by omega)]; exact hrest _ (by omega)), if_pos h2]
    · rw [Memory.get_cons (by rw [Memory.get, if_neg (by omega)]; exact hrest _ (by omega)), if_neg h2]
    · rw [Memory.get_cons (hrest _ (by omega)), if_pos h4]
    · rw [Memory.get_cons (hrest _ (by omega)), if_neg h4, Memory.get, if_neg (by omega)]
    · rw [Memory.get, if_neg (by omega), ih hm.2, if_pos ‹_›]
    · simp only [Memory.get, ih hm.2, if_neg ‹¬ x = addr›]

/-- A canonical memory stays canonical under a write. -/
theorem Memory.put_wf {m : Memory} (hm : m.wf = true) (addr : Nat) (v : Byte) : (Memory.put m addr v).wf = true :=
  Memory.put_risesFrom hm (Nat.zero_le _)

/-- A read after a write. -/
theorem Memory.get_put {m : Memory} (hm : m.wf = true) (addr : Nat) (v : Byte) (x : Nat) :
    Memory.get (Memory.put m addr v) x = if x = addr then v else Memory.get m x :=
  Memory.get_put_from hm x

/-- A write leaves every other place alone, whatever the memory. -/
theorem Memory.get_put_other (m : Memory) {addr x : Nat} (v : Byte) (h : x ≠ addr) :
    Memory.get (Memory.put m addr v) x = Memory.get m x := by
  have hcons (rest : Memory) : Memory.get (Memory.cons addr v rest) x = Memory.get rest x := by
    unfold Memory.cons
    split
    · rfl
    · rw [Memory.get, if_neg (Ne.symm h)]
  induction m with
  | nil => exact hcons []
  | cons c rest ih =>
    obtain ⟨k, u⟩ := c
    unfold Memory.put
    split_ifs with h1 h2
    · exact hcons _
    · rw [hcons, Memory.get, if_neg (by omega)]
    · simp only [Memory.get, ih]

theorem Memory.within_cons {len addr : Nat} {v : Byte} {rest : Memory} (h : addr < len)
    (hr : Memory.within len rest = true) : Memory.within len (Memory.cons addr v rest) = true := by
  unfold Memory.cons
  split
  · exact hr
  · simpa [Memory.within, h] using hr

theorem Memory.put_within {len addr : Nat} {v : Byte} {m : Memory} (hm : Memory.within len m = true) (h : addr < len) :
    Memory.within len (Memory.put m addr v) = true := by
  induction m with
  | nil => exact Memory.within_cons h rfl
  | cons c rest ih =>
    obtain ⟨k, u⟩ := c
    have hrest : Memory.within len rest = true := by
      simp only [Memory.within, List.all_cons, Bool.and_eq_true] at hm ⊢; exact hm.2
    unfold Memory.put
    split_ifs
    · exact Memory.within_cons h hm
    · exact Memory.within_cons h hrest
    · have := ih hrest
      simp only [Memory.within, List.all_cons, Bool.and_eq_true] at hm this ⊢
      exact ⟨hm.1, this⟩

theorem Memory.get_outside {len addr : Nat} {m : Memory} (hm : Memory.within len m = true) (h : len ≤ addr) :
    Memory.get m addr = 0 := by
  induction m with
  | nil => rfl
  | cons c rest ih =>
    simp only [Memory.within, List.all_cons, Bool.and_eq_true, decide_eq_true_eq] at hm
    rw [Memory.get, if_neg (by omega)]
    exact ih hm.2

/-- Two canonical memories with the same bytes are equal. -/
theorem Memory.ext_from {lo : Nat} {m m' : Memory} (hm : Memory.risesFrom lo m = true)
    (hm' : Memory.risesFrom lo m' = true) (h : ∀ x, Memory.get m x = Memory.get m' x) : m = m' := by
  induction m generalizing lo m' with
  | nil =>
    cases m' with
    | nil => rfl
    | cons c rest =>
      have := h c.1
      simp only [Memory.risesFrom, Bool.and_eq_true, decide_eq_true_eq] at hm'
      simp only [Memory.get, if_true] at this
      exact absurd this.symm hm'.1.2
  | cons c rest ih =>
    obtain ⟨k, u⟩ := c
    have hc := hm
    simp only [Memory.risesFrom, Bool.and_eq_true, decide_eq_true_eq] at hm
    cases m' with
    | nil =>
      have := h k
      simp only [Memory.get, if_true] at this
      exact absurd this hm.1.2
    | cons c' rest' =>
      obtain ⟨k', u'⟩ := c'
      have hc' := hm'
      simp only [Memory.risesFrom, Bool.and_eq_true, decide_eq_true_eq] at hm'
      have h1 : Memory.get rest k = 0 := Memory.get_below hm.2 (by omega)
      have h1' : Memory.get rest' k' = 0 := Memory.get_below hm'.2 (by omega)
      have hk : k = k' := by
        rcases Nat.lt_trichotomy k k' with hlt | heq | hgt
        · have := h k
          simp only [Memory.get, if_true, if_neg (by omega : ¬ k' = k)] at this
          rw [Memory.get_below hm'.2 (by omega)] at this
          exact absurd this hm.1.2
        · exact heq
        · have := h k'
          simp only [Memory.get, if_true, if_neg (by omega : ¬ k = k')] at this
          rw [Memory.get_below hm.2 (by omega)] at this
          exact absurd this.symm hm'.1.2
      subst hk
      have hu : u = u' := by simpa [Memory.get] using h k
      subst hu
      rw [ih hm.2 hm'.2]
      intro x
      by_cases hx : k = x
      · subst hx; rw [h1, h1']
      · simpa [Memory.get, hx] using h x

theorem Memory.ext_get {m m' : Memory} (hm : m.wf = true) (hm' : m'.wf = true)
    (h : ∀ x, Memory.get m x = Memory.get m' x) : m = m' :=
  Memory.ext_from hm hm' h

/-! ### Lists of writes -/

theorem Memory.putAll_wf {m : Memory} (hm : m.wf = true) (ws : List Host.Cell) : (m.putAll ws).wf = true := by
  induction ws generalizing m with
  | nil => exact hm
  | cons c rest ih => exact ih (Memory.put_wf hm c.1 c.2)

theorem Memory.putAll_within {len : Nat} {m : Memory} (hm : Memory.within len m = true) {ws : List Host.Cell}
    (hw : ∀ c ∈ ws, c.1 < len) : Memory.within len (m.putAll ws) = true := by
  induction ws generalizing m with
  | nil => exact hm
  | cons c rest ih =>
    exact ih (Memory.put_within hm (hw c List.mem_cons_self)) fun d hd => hw d (List.mem_cons_of_mem c hd)

/-- An address no write names keeps its byte, whatever the memory. -/
theorem Memory.get_putAll_other (m : Memory) {ws : List Host.Cell} {x : Nat} (hx : ∀ c ∈ ws, c.1 ≠ x) :
    (m.putAll ws).get x = m.get x := by
  induction ws generalizing m with
  | nil => rfl
  | cons c rest ih =>
    rw [show m.putAll (c :: rest) = (Memory.put m c.1 c.2).putAll rest from rfl,
      ih (Memory.put m c.1 c.2) fun d hd => hx d (List.mem_cons_of_mem c hd),
      Memory.get_put_other m c.2 (Ne.symm (hx c List.mem_cons_self))]

/-- An address that some write names, and for which all writes agree on the byte, holds that byte. -/
theorem Memory.get_putAll_same {m : Memory} (hm : m.wf = true) {ws : List Host.Cell} {x : Nat} {v : Byte}
    (hv : ∀ c ∈ ws, c.1 = x → c.2 = v) (hx : ∃ c ∈ ws, c.1 = x) : (m.putAll ws).get x = v := by
  induction ws generalizing m with
  | nil => simp at hx
  | cons c rest ih =>
    rw [show m.putAll (c :: rest) = (Memory.put m c.1 c.2).putAll rest from rfl]
    have hv' : ∀ d ∈ rest, d.1 = x → d.2 = v := fun d hd => hv d (List.mem_cons_of_mem c hd)
    by_cases hr : ∃ d ∈ rest, d.1 = x
    · exact ih (Memory.put_wf hm c.1 c.2) hv' hr
    · have hr' : ∀ d ∈ rest, d.1 ≠ x := fun d hd hdx => hr ⟨d, hd, hdx⟩
      obtain ⟨d, hd, hdx⟩ := hx
      obtain rfl : d = c := by
        rcases List.mem_cons.1 hd with h | h
        · exact h
        · exact absurd hdx (hr' d h)
      rw [Memory.get_putAll_other _ hr', Memory.get_put hm, if_pos hdx.symm]
      exact hv d hd hdx

end Sys2Proof.Machine
end

