-- ==== Sys2Proof/Laws/State.lean ====
section
/-! SUPPORT. One lemma per field per named update of the state, so that no proof unfolds a record update. -/

namespace Sys2Proof.Machine

/-! ### `State.respond` -/

@[simp] theorem State.respond_par (s : State) (code : RspCode) (data : BitVec 32) : (s.respond code data).par = s.par := rfl
@[simp] theorem State.respond_n (s : State) (code : RspCode) (data : BitVec 32) : (s.respond code data).n = s.n := rfl
@[simp] theorem State.respond_order (s : State) (code : RspCode) (data : BitVec 32) : (s.respond code data).order = s.order := rfl
@[simp] theorem State.respond_speed (s : State) (code : RspCode) (data : BitVec 32) : (s.respond code data).speed = s.speed := rfl
@[simp] theorem State.respond_raw (s : State) (code : RspCode) (data : BitVec 32) : (s.respond code data).raw = s.raw := rfl
@[simp] theorem State.respond_st (s : State) (code : RspCode) (data : BitVec 32) : (s.respond code data).st = s.st := rfl
@[simp] theorem State.respond_bytePtr (s : State) (code : RspCode) (data : BitVec 32) : (s.respond code data).bytePtr = s.bytePtr := rfl
@[simp] theorem State.respond_bitIdx (s : State) (code : RspCode) (data : BitVec 32) : (s.respond code data).bitIdx = s.bitIdx := rfl
@[simp] theorem State.respond_cnt (s : State) (code : RspCode) (data : BitVec 32) : (s.respond code data).cnt = s.cnt := rfl
@[simp] theorem State.respond_lv (s : State) (code : RspCode) (data : BitVec 32) : (s.respond code data).lv = s.lv := rfl
@[simp] theorem State.respond_tend (s : State) (code : RspCode) (data : BitVec 32) : (s.respond code data).tend = s.tend := rfl
@[simp] theorem State.respond_now (s : State) (code : RspCode) (data : BitVec 32) : (s.respond code data).now = s.now + 1 := rfl
@[simp] theorem State.respond_rspv (s : State) (code : RspCode) (data : BitVec 32) : (s.respond code data).rspv = true := rfl
@[simp] theorem State.respond_rspc (s : State) (code : RspCode) (data : BitVec 32) : (s.respond code data).rspc = code.bits := rfl
@[simp] theorem State.respond_rspd (s : State) (code : RspCode) (data : BitVec 32) : (s.respond code data).rspd = data := rfl
@[simp] theorem State.respond_draws (s : State) (code : RspCode) (data : BitVec 32) : (s.respond code data).draws = s.draws + 1 := rfl
@[simp] theorem State.respond_host (s : State) (code : RspCode) (data : BitVec 32) : (s.respond code data).host = s.host := rfl

/-! ### `State.noResponse` -/

@[simp] theorem State.noResponse_par (s : State) : s.noResponse.par = s.par := rfl
@[simp] theorem State.noResponse_n (s : State) : s.noResponse.n = s.n := rfl
@[simp] theorem State.noResponse_order (s : State) : s.noResponse.order = s.order := rfl
@[simp] theorem State.noResponse_speed (s : State) : s.noResponse.speed = s.speed := rfl
@[simp] theorem State.noResponse_raw (s : State) : s.noResponse.raw = s.raw := rfl
@[simp] theorem State.noResponse_st (s : State) : s.noResponse.st = s.st := rfl
@[simp] theorem State.noResponse_bytePtr (s : State) : s.noResponse.bytePtr = s.bytePtr := rfl
@[simp] theorem State.noResponse_bitIdx (s : State) : s.noResponse.bitIdx = s.bitIdx := rfl
@[simp] theorem State.noResponse_cnt (s : State) : s.noResponse.cnt = s.cnt := rfl
@[simp] theorem State.noResponse_lv (s : State) : s.noResponse.lv = s.lv := rfl
@[simp] theorem State.noResponse_tend (s : State) : s.noResponse.tend = s.tend := rfl
@[simp] theorem State.noResponse_now (s : State) : s.noResponse.now = s.now + 1 := rfl
@[simp] theorem State.noResponse_rspv (s : State) : s.noResponse.rspv = false := rfl
@[simp] theorem State.noResponse_rspc (s : State) : s.noResponse.rspc = Config.freeRspCode s.draws := rfl
@[simp] theorem State.noResponse_rspd (s : State) : s.noResponse.rspd = Config.freeRspData s.draws := rfl
@[simp] theorem State.noResponse_draws (s : State) : s.noResponse.draws = s.draws + 1 := rfl
@[simp] theorem State.noResponse_host (s : State) : s.noResponse.host = s.host := rfl

/-! ### `State.startWait` -/

@[simp] theorem State.startWait_par (s : State) : s.startWait.par = s.par := rfl
@[simp] theorem State.startWait_n (s : State) : s.startWait.n = s.n := rfl
@[simp] theorem State.startWait_order (s : State) : s.startWait.order = s.order := rfl
@[simp] theorem State.startWait_speed (s : State) : s.startWait.speed = s.speed := rfl
@[simp] theorem State.startWait_raw (s : State) : s.startWait.raw = s.raw := rfl
@[simp] theorem State.startWait_st (s : State) : s.startWait.st = .wait := rfl
@[simp] theorem State.startWait_bytePtr (s : State) : s.startWait.bytePtr = s.bytePtr := rfl
@[simp] theorem State.startWait_bitIdx (s : State) : s.startWait.bitIdx = s.bitIdx := rfl
@[simp] theorem State.startWait_cnt (s : State) : s.startWait.cnt = s.cnt := rfl
@[simp] theorem State.startWait_lv (s : State) : s.startWait.lv = s.lv := rfl
@[simp] theorem State.startWait_tend (s : State) : s.startWait.tend = s.tend := rfl
@[simp] theorem State.startWait_now (s : State) : s.startWait.now = s.now := rfl
@[simp] theorem State.startWait_rspv (s : State) : s.startWait.rspv = s.rspv := rfl
@[simp] theorem State.startWait_rspc (s : State) : s.startWait.rspc = s.rspc := rfl
@[simp] theorem State.startWait_rspd (s : State) : s.startWait.rspd = s.rspd := rfl
@[simp] theorem State.startWait_draws (s : State) : s.startWait.draws = s.draws := rfl
@[simp] theorem State.startWait_host (s : State) : s.startWait.host = s.host := rfl

/-! ### `State.startLow` -/

@[simp] theorem State.startLow_par (s : State) (v : Bool) : (s.startLow v).par = s.par := rfl
@[simp] theorem State.startLow_n (s : State) (v : Bool) : (s.startLow v).n = s.n := rfl
@[simp] theorem State.startLow_order (s : State) (v : Bool) : (s.startLow v).order = s.order := rfl
@[simp] theorem State.startLow_speed (s : State) (v : Bool) : (s.startLow v).speed = s.speed := rfl
@[simp] theorem State.startLow_raw (s : State) (v : Bool) : (s.startLow v).raw = s.raw := rfl
@[simp] theorem State.startLow_st (s : State) (v : Bool) : (s.startLow v).st = .txl := rfl
@[simp] theorem State.startLow_bytePtr (s : State) (v : Bool) : (s.startLow v).bytePtr = s.bytePtr := rfl
@[simp] theorem State.startLow_bitIdx (s : State) (v : Bool) : (s.startLow v).bitIdx = s.bitIdx := rfl
@[simp] theorem State.startLow_cnt (s : State) (v : Bool) : (s.startLow v).cnt = s.lowTicks v := rfl
@[simp] theorem State.startLow_lv (s : State) (v : Bool) : (s.startLow v).lv = s.lv := rfl
@[simp] theorem State.startLow_tend (s : State) (v : Bool) : (s.startLow v).tend = s.tend := rfl
@[simp] theorem State.startLow_now (s : State) (v : Bool) : (s.startLow v).now = s.now := rfl
@[simp] theorem State.startLow_rspv (s : State) (v : Bool) : (s.startLow v).rspv = s.rspv := rfl
@[simp] theorem State.startLow_rspc (s : State) (v : Bool) : (s.startLow v).rspc = s.rspc := rfl
@[simp] theorem State.startLow_rspd (s : State) (v : Bool) : (s.startLow v).rspd = s.rspd := rfl
@[simp] theorem State.startLow_draws (s : State) (v : Bool) : (s.startLow v).draws = s.draws := rfl
@[simp] theorem State.startLow_host (s : State) (v : Bool) : (s.startLow v).host = s.host := rfl

/-! ### `State.countDown` -/

@[simp] theorem State.countDown_par (s : State) : s.countDown.par = s.par := rfl
@[simp] theorem State.countDown_n (s : State) : s.countDown.n = s.n := rfl
@[simp] theorem State.countDown_order (s : State) : s.countDown.order = s.order := rfl
@[simp] theorem State.countDown_speed (s : State) : s.countDown.speed = s.speed := rfl
@[simp] theorem State.countDown_raw (s : State) : s.countDown.raw = s.raw := rfl
@[simp] theorem State.countDown_st (s : State) : s.countDown.st = s.st := rfl
@[simp] theorem State.countDown_bytePtr (s : State) : s.countDown.bytePtr = s.bytePtr := rfl
@[simp] theorem State.countDown_bitIdx (s : State) : s.countDown.bitIdx = s.bitIdx := rfl
@[simp] theorem State.countDown_cnt (s : State) : s.countDown.cnt = s.cnt - 1 := rfl
@[simp] theorem State.countDown_lv (s : State) : s.countDown.lv = s.lv := rfl
@[simp] theorem State.countDown_tend (s : State) : s.countDown.tend = s.tend := rfl
@[simp] theorem State.countDown_now (s : State) : s.countDown.now = s.now := rfl
@[simp] theorem State.countDown_rspv (s : State) : s.countDown.rspv = s.rspv := rfl
@[simp] theorem State.countDown_rspc (s : State) : s.countDown.rspc = s.rspc := rfl
@[simp] theorem State.countDown_rspd (s : State) : s.countDown.rspd = s.rspd := rfl
@[simp] theorem State.countDown_draws (s : State) : s.countDown.draws = s.draws := rfl
@[simp] theorem State.countDown_host (s : State) : s.countDown.host = s.host := rfl

/-! ### `State.withRaw` -/

@[simp] theorem State.withRaw_par (s : State) (ws : List Host.Cell) : (s.withRaw ws).par = s.par := rfl
@[simp] theorem State.withRaw_n (s : State) (ws : List Host.Cell) : (s.withRaw ws).n = s.n := rfl
@[simp] theorem State.withRaw_order (s : State) (ws : List Host.Cell) : (s.withRaw ws).order = s.order := rfl
@[simp] theorem State.withRaw_speed (s : State) (ws : List Host.Cell) : (s.withRaw ws).speed = s.speed := rfl
@[simp] theorem State.withRaw_raw (s : State) (ws : List Host.Cell) : (s.withRaw ws).raw = s.raw.putAll ws := rfl
@[simp] theorem State.withRaw_st (s : State) (ws : List Host.Cell) : (s.withRaw ws).st = s.st := rfl
@[simp] theorem State.withRaw_bytePtr (s : State) (ws : List Host.Cell) : (s.withRaw ws).bytePtr = s.bytePtr := rfl
@[simp] theorem State.withRaw_bitIdx (s : State) (ws : List Host.Cell) : (s.withRaw ws).bitIdx = s.bitIdx := rfl
@[simp] theorem State.withRaw_cnt (s : State) (ws : List Host.Cell) : (s.withRaw ws).cnt = s.cnt := rfl
@[simp] theorem State.withRaw_lv (s : State) (ws : List Host.Cell) : (s.withRaw ws).lv = s.lv := rfl
@[simp] theorem State.withRaw_tend (s : State) (ws : List Host.Cell) : (s.withRaw ws).tend = s.tend := rfl
@[simp] theorem State.withRaw_now (s : State) (ws : List Host.Cell) : (s.withRaw ws).now = s.now := rfl
@[simp] theorem State.withRaw_rspv (s : State) (ws : List Host.Cell) : (s.withRaw ws).rspv = s.rspv := rfl
@[simp] theorem State.withRaw_rspc (s : State) (ws : List Host.Cell) : (s.withRaw ws).rspc = s.rspc := rfl
@[simp] theorem State.withRaw_rspd (s : State) (ws : List Host.Cell) : (s.withRaw ws).rspd = s.rspd := rfl
@[simp] theorem State.withRaw_draws (s : State) (ws : List Host.Cell) : (s.withRaw ws).draws = s.draws := rfl
@[simp] theorem State.withRaw_host (s : State) (ws : List Host.Cell) : (s.withRaw ws).host = s.host := rfl

/-! ### `State.startPulse` -/

@[simp] theorem State.startPulse_par (s : State) (addr : Nat) (bit : BitVec 3) (v : Byte) : (s.startPulse addr bit v).par = s.par := rfl
@[simp] theorem State.startPulse_n (s : State) (addr : Nat) (bit : BitVec 3) (v : Byte) : (s.startPulse addr bit v).n = s.n := rfl
@[simp] theorem State.startPulse_order (s : State) (addr : Nat) (bit : BitVec 3) (v : Byte) : (s.startPulse addr bit v).order = s.order := rfl
@[simp] theorem State.startPulse_speed (s : State) (addr : Nat) (bit : BitVec 3) (v : Byte) : (s.startPulse addr bit v).speed = s.speed := rfl
@[simp] theorem State.startPulse_raw (s : State) (addr : Nat) (bit : BitVec 3) (v : Byte) : (s.startPulse addr bit v).raw = s.raw := rfl
@[simp] theorem State.startPulse_st (s : State) (addr : Nat) (bit : BitVec 3) (v : Byte) : (s.startPulse addr bit v).st = .txh := rfl
@[simp] theorem State.startPulse_bytePtr (s : State) (addr : Nat) (bit : BitVec 3) (v : Byte) : (s.startPulse addr bit v).bytePtr = addr := rfl
@[simp] theorem State.startPulse_bitIdx (s : State) (addr : Nat) (bit : BitVec 3) (v : Byte) : (s.startPulse addr bit v).bitIdx = bit := rfl
@[simp] theorem State.startPulse_cnt (s : State) (addr : Nat) (bit : BitVec 3) (v : Byte) : (s.startPulse addr bit v).cnt = s.highTicks (v.getLsbD bit.toNat) := rfl
@[simp] theorem State.startPulse_lv (s : State) (addr : Nat) (bit : BitVec 3) (v : Byte) : (s.startPulse addr bit v).lv = s.lv := rfl
@[simp] theorem State.startPulse_tend (s : State) (addr : Nat) (bit : BitVec 3) (v : Byte) : (s.startPulse addr bit v).tend = s.tend := rfl
@[simp] theorem State.startPulse_now (s : State) (addr : Nat) (bit : BitVec 3) (v : Byte) : (s.startPulse addr bit v).now = s.now := rfl
@[simp] theorem State.startPulse_rspv (s : State) (addr : Nat) (bit : BitVec 3) (v : Byte) : (s.startPulse addr bit v).rspv = s.rspv := rfl
@[simp] theorem State.startPulse_rspc (s : State) (addr : Nat) (bit : BitVec 3) (v : Byte) : (s.startPulse addr bit v).rspc = s.rspc := rfl
@[simp] theorem State.startPulse_rspd (s : State) (addr : Nat) (bit : BitVec 3) (v : Byte) : (s.startPulse addr bit v).rspd = s.rspd := rfl
@[simp] theorem State.startPulse_draws (s : State) (addr : Nat) (bit : BitVec 3) (v : Byte) : (s.startPulse addr bit v).draws = s.draws := rfl
@[simp] theorem State.startPulse_host (s : State) (addr : Nat) (bit : BitVec 3) (v : Byte) : (s.startPulse addr bit v).host = s.host := rfl

/-! ### `State.endFrame` -/

@[simp] theorem State.endFrame_par (s : State) : s.endFrame.par = s.par := rfl
@[simp] theorem State.endFrame_n (s : State) : s.endFrame.n = s.n := rfl
@[simp] theorem State.endFrame_order (s : State) : s.endFrame.order = s.order := rfl
@[simp] theorem State.endFrame_speed (s : State) : s.endFrame.speed = s.speed := rfl
@[simp] theorem State.endFrame_raw (s : State) : s.endFrame.raw = s.raw := rfl
@[simp] theorem State.endFrame_st (s : State) : s.endFrame.st = .idle := rfl
@[simp] theorem State.endFrame_bytePtr (s : State) : s.endFrame.bytePtr = Config.freeBytePtr s.draws := rfl
@[simp] theorem State.endFrame_bitIdx (s : State) : s.endFrame.bitIdx = Config.freeBitIdx s.draws := rfl
@[simp] theorem State.endFrame_cnt (s : State) : s.endFrame.cnt = Config.freeCnt s.draws := rfl
@[simp] theorem State.endFrame_lv (s : State) : s.endFrame.lv = true := rfl
@[simp] theorem State.endFrame_tend (s : State) : s.endFrame.tend = s.now + 1 := rfl
@[simp] theorem State.endFrame_now (s : State) : s.endFrame.now = s.now := rfl
@[simp] theorem State.endFrame_rspv (s : State) : s.endFrame.rspv = s.rspv := rfl
@[simp] theorem State.endFrame_rspc (s : State) : s.endFrame.rspc = s.rspc := rfl
@[simp] theorem State.endFrame_rspd (s : State) : s.endFrame.rspd = s.rspd := rfl
@[simp] theorem State.endFrame_draws (s : State) : s.endFrame.draws = s.draws := rfl
@[simp] theorem State.endFrame_host (s : State) : s.endFrame.host = s.host := rfl

/-! ### `State.configure` -/

@[simp] theorem State.configure_par (s : State) (count : PixelCount) (order : BitVec 8) (speed : Speed) : (s.configure count order speed).par = s.par := rfl
@[simp] theorem State.configure_n (s : State) (count : PixelCount) (order : BitVec 8) (speed : Speed) : (s.configure count order speed).n = if count.toNat * channelsOf order ≤ s.par.maxBytes then count else 0 := rfl
@[simp] theorem State.configure_order (s : State) (count : PixelCount) (order : BitVec 8) (speed : Speed) : (s.configure count order speed).order = order := rfl
@[simp] theorem State.configure_speed (s : State) (count : PixelCount) (order : BitVec 8) (speed : Speed) : (s.configure count order speed).speed = speed := rfl
@[simp] theorem State.configure_raw (s : State) (count : PixelCount) (order : BitVec 8) (speed : Speed) : (s.configure count order speed).raw = [] := rfl
@[simp] theorem State.configure_st (s : State) (count : PixelCount) (order : BitVec 8) (speed : Speed) : (s.configure count order speed).st = s.st := rfl
@[simp] theorem State.configure_bytePtr (s : State) (count : PixelCount) (order : BitVec 8) (speed : Speed) : (s.configure count order speed).bytePtr = s.bytePtr := rfl
@[simp] theorem State.configure_bitIdx (s : State) (count : PixelCount) (order : BitVec 8) (speed : Speed) : (s.configure count order speed).bitIdx = s.bitIdx := rfl
@[simp] theorem State.configure_cnt (s : State) (count : PixelCount) (order : BitVec 8) (speed : Speed) : (s.configure count order speed).cnt = s.cnt := rfl
@[simp] theorem State.configure_lv (s : State) (count : PixelCount) (order : BitVec 8) (speed : Speed) : (s.configure count order speed).lv = s.lv := rfl
@[simp] theorem State.configure_tend (s : State) (count : PixelCount) (order : BitVec 8) (speed : Speed) : (s.configure count order speed).tend = s.tend := rfl
@[simp] theorem State.configure_now (s : State) (count : PixelCount) (order : BitVec 8) (speed : Speed) : (s.configure count order speed).now = s.now := rfl
@[simp] theorem State.configure_rspv (s : State) (count : PixelCount) (order : BitVec 8) (speed : Speed) : (s.configure count order speed).rspv = s.rspv := rfl
@[simp] theorem State.configure_rspc (s : State) (count : PixelCount) (order : BitVec 8) (speed : Speed) : (s.configure count order speed).rspc = s.rspc := rfl
@[simp] theorem State.configure_rspd (s : State) (count : PixelCount) (order : BitVec 8) (speed : Speed) : (s.configure count order speed).rspd = s.rspd := rfl
@[simp] theorem State.configure_draws (s : State) (count : PixelCount) (order : BitVec 8) (speed : Speed) : (s.configure count order speed).draws = s.draws := rfl
@[simp] theorem State.configure_host (s : State) (count : PixelCount) (order : BitVec 8) (speed : Speed) : (s.configure count order speed).host = s.host := rfl

/-! ### `State.afterReset` -/

@[simp] theorem State.afterReset_par (s : State) : s.afterReset.par = s.par := rfl
@[simp] theorem State.afterReset_n (s : State) : s.afterReset.n = 0 := rfl
@[simp] theorem State.afterReset_order (s : State) : s.afterReset.order = 0x06 := rfl
@[simp] theorem State.afterReset_speed (s : State) : s.afterReset.speed = .standard := rfl
@[simp] theorem State.afterReset_raw (s : State) : s.afterReset.raw = [] := rfl
@[simp] theorem State.afterReset_st (s : State) : s.afterReset.st = .idle := rfl
@[simp] theorem State.afterReset_bytePtr (s : State) : s.afterReset.bytePtr = 0 := rfl
@[simp] theorem State.afterReset_bitIdx (s : State) : s.afterReset.bitIdx = 0 := rfl
@[simp] theorem State.afterReset_cnt (s : State) : s.afterReset.cnt = 0 := rfl
@[simp] theorem State.afterReset_lv (s : State) : s.afterReset.lv = false := rfl
@[simp] theorem State.afterReset_tend (s : State) : s.afterReset.tend = 0 := rfl
@[simp] theorem State.afterReset_now (s : State) : s.afterReset.now = 0 := rfl
@[simp] theorem State.afterReset_rspv (s : State) : s.afterReset.rspv = false := rfl
@[simp] theorem State.afterReset_rspc (s : State) : s.afterReset.rspc = 0 := rfl
@[simp] theorem State.afterReset_rspd (s : State) : s.afterReset.rspd = 0 := rfl
@[simp] theorem State.afterReset_draws (s : State) : s.afterReset.draws = s.draws + 1 := rfl
@[simp] theorem State.afterReset_host (s : State) : s.afterReset.host = s.host := rfl

/-! ### `State.nextHostTick`: only `host` moves -/

@[simp] theorem State.nextHostTick_par (s : State) : s.nextHostTick.par = s.par := by
  unfold State.nextHostTick; split <;> rfl
@[simp] theorem State.nextHostTick_n (s : State) : s.nextHostTick.n = s.n := by
  unfold State.nextHostTick; split <;> rfl
@[simp] theorem State.nextHostTick_order (s : State) : s.nextHostTick.order = s.order := by
  unfold State.nextHostTick; split <;> rfl
@[simp] theorem State.nextHostTick_speed (s : State) : s.nextHostTick.speed = s.speed := by
  unfold State.nextHostTick; split <;> rfl
@[simp] theorem State.nextHostTick_raw (s : State) : s.nextHostTick.raw = s.raw := by
  unfold State.nextHostTick; split <;> rfl
@[simp] theorem State.nextHostTick_st (s : State) : s.nextHostTick.st = s.st := by
  unfold State.nextHostTick; split <;> rfl
@[simp] theorem State.nextHostTick_bytePtr (s : State) : s.nextHostTick.bytePtr = s.bytePtr := by
  unfold State.nextHostTick; split <;> rfl
@[simp] theorem State.nextHostTick_bitIdx (s : State) : s.nextHostTick.bitIdx = s.bitIdx := by
  unfold State.nextHostTick; split <;> rfl
@[simp] theorem State.nextHostTick_cnt (s : State) : s.nextHostTick.cnt = s.cnt := by
  unfold State.nextHostTick; split <;> rfl
@[simp] theorem State.nextHostTick_lv (s : State) : s.nextHostTick.lv = s.lv := by
  unfold State.nextHostTick; split <;> rfl
@[simp] theorem State.nextHostTick_tend (s : State) : s.nextHostTick.tend = s.tend := by
  unfold State.nextHostTick; split <;> rfl
@[simp] theorem State.nextHostTick_now (s : State) : s.nextHostTick.now = s.now := by
  unfold State.nextHostTick; split <;> rfl
@[simp] theorem State.nextHostTick_rspv (s : State) : s.nextHostTick.rspv = s.rspv := by
  unfold State.nextHostTick; split <;> rfl
@[simp] theorem State.nextHostTick_rspc (s : State) : s.nextHostTick.rspc = s.rspc := by
  unfold State.nextHostTick; split <;> rfl
@[simp] theorem State.nextHostTick_rspd (s : State) : s.nextHostTick.rspd = s.rspd := by
  unfold State.nextHostTick; split <;> rfl
@[simp] theorem State.nextHostTick_draws (s : State) : s.nextHostTick.draws = s.draws := by
  unfold State.nextHostTick; split <;> rfl

@[simp] theorem State.nextHostTick_host (s : State) :
    s.nextHostTick.host = if s.keepsCommand then s.host else s.host.tail := by
  unfold State.nextHostTick; split <;> rfl

theorem State.nextHostTick_eq (s : State) : s.nextHostTick = { s with host := s.nextHostTick.host } := by
  unfold State.nextHostTick; split <;> rfl

/-! ### Derived values depend on few fields -/

theorem State.channels_congr {s t : State} (h : t.order = s.order) : t.channels = s.channels := by
  simp only [State.channels, h]

theorem State.len_congr {s t : State} (hn : t.n = s.n) (ho : t.order = s.order) : t.len = s.len := by
  simp only [State.len, hn, State.channels_congr ho]

theorem State.timing_congr {s t : State} (hp : t.par = s.par) (hs : t.speed = s.speed) : t.timing = s.timing := by
  simp only [State.timing, hp, hs]

theorem State.highTicks_congr {s t : State} (hp : t.par = s.par) (hs : t.speed = s.speed) (v : Bool) :
    t.highTicks v = s.highTicks v := by
  simp only [State.highTicks, State.timing_congr hp hs]

theorem State.lowTicks_congr {s t : State} (hp : t.par = s.par) (hs : t.speed = s.speed) (v : Bool) :
    t.lowTicks v = s.lowTicks v := by
  simp only [State.lowTicks, State.timing_congr hp hs]

theorem State.byteAt_congr {s t : State} (h : t.raw = s.raw) (addr : Nat) : t.byteAt addr = s.byteAt addr := by
  simp only [State.byteAt, h]

theorem SameBytes.of_raw {s t : State} (h : t.raw = s.raw) : SameBytes s t := State.byteAt_congr h

end Sys2Proof.Machine
end

