-- ==== Sys2Proof/Laws/Ops.lean ====
section
/-! SUPPORT. What each shared operation can do, said once: byte access, lists of writes, the extractor. -/

namespace Sys2Proof.Machine

/-! ### Byte access -/

theorem withByte_of_lt {s : State} {addr : Nat} (h : addr < s.len) (k : Byte → Answer State) :
    withByte s addr k = k (s.byteAt addr) := by
  simp only [withByte, memRead, if_pos h]

theorem withByte_of_ge {s : State} {addr : Nat} (h : s.len ≤ addr) (k : Byte → Answer State) :
    withByte s addr k = .refused (.addressOutOfRange addr) := by
  simp only [withByte, memRead, if_neg (Nat.not_lt.2 h)]

/-- A read that goes on was in range. -/
theorem withByte_next {s t : State} {addr : Nat} {k : Byte → Answer State} (h : withByte s addr k = .next t) :
    addr < s.len ∧ k (s.byteAt addr) = .next t := by
  by_cases ha : addr < s.len
  · exact ⟨ha, withByte_of_lt ha k ▸ h⟩
  · rw [withByte_of_ge (Nat.not_lt.1 ha)] at h
    cases h

/-- Writes that are all in range are all done. -/
theorem memWriteAll_of_lt {s : State} {ws : List Host.Cell} (h : ∀ c ∈ ws, c.1 < s.len) :
    memWriteAll s ws = .ok (s.withRaw ws) := by
  have hf : ws.find? (fun c => !decide (c.1 < s.len)) = none := by
    rw [List.find?_eq_none]
    intro c hc
    simp [h c hc]
  simp only [memWriteAll, hf]

/-- A write at `LEN` or above is refused by its address. -/
theorem memWriteAll_of_ge {s : State} {addr : Nat} (h : s.len ≤ addr) (v : Byte) (ws : List Host.Cell) :
    memWriteAll s ((addr, v) :: ws) = .error (.addressOutOfRange addr) := by
  simp [memWriteAll, Nat.not_lt.2 h]

theorem withWrites_of_lt {s : State} {ws : List Host.Cell} (h : ∀ c ∈ ws, c.1 < s.len) (k : State → Answer State) :
    withWrites s ws k = k (s.withRaw ws) := by
  simp only [withWrites, memWriteAll_of_lt h]

/-- Writes that go on were all in range. -/
theorem withWrites_next {s t : State} {ws : List Host.Cell} {k : State → Answer State}
    (h : withWrites s ws k = .next t) : (∀ c ∈ ws, c.1 < s.len) ∧ k (s.withRaw ws) = .next t := by
  by_cases hw : ∀ c ∈ ws, c.1 < s.len
  · exact ⟨hw, withWrites_of_lt hw k ▸ h⟩
  · exfalso
    cases hf : ws.find? (fun c => !decide (c.1 < s.len)) with
    | none =>
      rw [List.find?_eq_none] at hf
      exact hw fun c hc => by simpa using hf c hc
    | some c =>
      simp only [withWrites, memWriteAll, hf] at h
      cases h

/-! ### Order codes and records -/

theorem channelsOf_cases (o : BitVec 8) : channelsOf o = 3 ∨ channelsOf o = 4 := by
  unfold channelsOf; split <;> simp

theorem channelsOf_pos (o : BitVec 8) : 0 < channelsOf o := by
  rcases channelsOf_cases o with h | h <;> omega

/-- In a valid order the offsets of the channels lie in the record and differ. -/
theorem validOrder_offsets {o : BitVec 8} (h : validOrder o = true) :
    roffOf o < channelsOf o ∧ goffOf o < channelsOf o ∧ boffOf o < channelsOf o ∧ woffOf o < channelsOf o ∧
    roffOf o ≠ goffOf o ∧ roffOf o ≠ boffOf o ∧ goffOf o ≠ boffOf o ∧
    (channelsOf o = 4 → woffOf o ≠ roffOf o ∧ woffOf o ≠ goffOf o ∧ woffOf o ≠ boffOf o) := by
  have hw : woffOf o < 4 := (o.extractLsb' 6 2).isLt
  have hr : roffOf o < 4 := (o.extractLsb' 4 2).isLt
  have hg : goffOf o < 4 := (o.extractLsb' 2 2).isLt
  have hb : boffOf o < 4 := (o.extractLsb' 0 2).isLt
  by_cases hwr : woffOf o = roffOf o
  · simp only [validOrder, if_pos hwr, decide_eq_true_eq] at h
    simp only [channelsOf, if_pos hwr]
    omega
  · simp only [validOrder, if_neg hwr, decide_eq_true_eq] at h
    simp only [channelsOf, if_neg hwr]
    omega

theorem State.recordBase_add_lt {s : State} {i off : Nat} (hi : i < s.n.toNat) (ho : off < s.channels) :
    s.recordBase i + off < s.len := by
  have h : (i + 1) * s.channels ≤ s.n.toNat * s.channels := Nat.mul_le_mul_right _ hi
  rw [Nat.add_mul] at h
  unfold State.recordBase State.len
  omega

/-- Every write of `Place` lies in the record of its pixel. -/
theorem placeWrites_in_record {s : State} (hv : validOrder s.order = true) {i : Nat} {color : Color} {c : Host.Cell}
    (hc : c ∈ placeWrites s i color) : s.recordBase i ≤ c.1 ∧ c.1 < s.recordBase i + s.channels := by
  obtain ⟨hr, hg, hb, hw, -⟩ := validOrder_offsets hv
  change roffOf s.order < s.channels at hr
  change goffOf s.order < s.channels at hg
  change boffOf s.order < s.channels at hb
  change woffOf s.order < s.channels at hw
  simp only [placeWrites, List.mem_append, List.mem_cons, List.not_mem_nil, or_false] at hc
  rcases hc with (rfl | rfl | rfl) | hc
  · exact ⟨by simp, by simpa using hr⟩
  · exact ⟨by simp, by simpa using hg⟩
  · exact ⟨by simp, by simpa using hb⟩
  · by_cases h4 : s.channels = 4
    · rw [if_pos h4, List.mem_singleton] at hc
      subst hc
      exact ⟨by simp, by simpa using hw⟩
    · rw [if_neg h4] at hc
      cases hc

theorem placeWrites_lt {s : State} (hv : validOrder s.order = true) {i : Nat} (hi : i < s.n.toNat) {color : Color}
    {c : Host.Cell} (hc : c ∈ placeWrites s i color) : c.1 < s.len := by
  obtain ⟨h1, h2⟩ := placeWrites_in_record hv hc
  have h : (i + 1) * s.channels ≤ s.n.toNat * s.channels := Nat.mul_le_mul_right _ hi
  rw [Nat.add_mul] at h
  unfold State.recordBase at h1 h2
  unfold State.len
  omega

/-- Two pixel records share no byte. -/
theorem State.record_of_addr {s : State} {i j off off' : Nat} (ho : off < s.channels) (ho' : off' < s.channels)
    (h : s.recordBase i + off = s.recordBase j + off') : i = j ∧ off = off' := by
  unfold State.recordBase at h
  rcases Nat.lt_trichotomy i j with hlt | heq | hgt
  · have := Nat.mul_le_mul_right s.channels hlt
    rw [Nat.succ_mul] at this
    omega
  · subst heq; exact ⟨rfl, by omega⟩
  · have := Nat.mul_le_mul_right s.channels hgt
    rw [Nat.succ_mul] at this
    omega

/-- The byte a `Place` of pixel `i` writes at offset `off` of its record. -/
def channelByte (o : BitVec 8) (color : Color) (off : Nat) : Byte :=
  if off = roffOf o then (extract color).r
  else if off = goffOf o then (extract color).g
  else if off = boffOf o then (extract color).b
  else (extract color).w

/-- In a valid order a `Place` writes at each offset of the record exactly the byte of the channel mapped there. -/
theorem mem_placeWrites {s : State} (hv : validOrder s.order = true) {i : Nat} {color : Color} {c : Host.Cell} :
    c ∈ placeWrites s i color ↔
      ∃ off, off < s.channels ∧ c = (s.recordBase i + off, channelByte s.order color off) := by
  obtain ⟨hr, hg, hb, hw, hrg, hrb, hgb, h4⟩ := validOrder_offsets hv
  have hch : s.channels = channelsOf s.order := rfl
  constructor
  · intro hc
    simp only [placeWrites, List.mem_append, List.mem_cons, List.not_mem_nil, or_false] at hc
    rcases hc with (rfl | rfl | rfl) | hc
    · exact ⟨_, hr, by simp [channelByte]⟩
    · exact ⟨_, hg, by simp [channelByte, hrg.symm]⟩
    · exact ⟨_, hb, by simp [channelByte, hrb.symm, hgb.symm]⟩
    · split at hc
      · rename_i h
        obtain ⟨a, b, d⟩ := h4 h
        simp only [List.mem_cons, List.not_mem_nil, or_false] at hc
        exact ⟨_, hw, by simp [channelByte, a, b, d, hc]⟩
      · simp at hc
  · rintro ⟨off, ho, rfl⟩
    have hcases : off = roffOf s.order ∨ off = goffOf s.order ∨ off = boffOf s.order ∨
        (s.channels = 4 ∧ off = woffOf s.order ∧ off ≠ roffOf s.order ∧ off ≠ goffOf s.order ∧ off ≠ boffOf s.order) := by
      rcases channelsOf_cases s.order with h | h
      · omega
      · have := h4 h
        omega
    rcases hcases with rfl | rfl | rfl | ⟨h, rfl, a, b, d⟩
    · simp [placeWrites, channelByte]
    · simp [placeWrites, channelByte, hrg.symm]
    · simp [placeWrites, channelByte, hrb.symm, hgb.symm]
    · simp [placeWrites, channelByte, h, a, b, d]

theorem mem_fillWrites {s : State} {first last : Nat} {color : Color} {c : Host.Cell} :
    c ∈ fillWrites s first last color ↔ ∃ i, first ≤ i ∧ i < last ∧ c ∈ placeWrites s i color := by
  simp only [fillWrites, List.mem_flatMap, List.mem_range'_1]
  constructor
  · rintro ⟨i, ⟨h1, h2⟩, hc⟩
    exact ⟨i, h1, by omega, hc⟩
  · rintro ⟨i, h1, h2, hc⟩
    exact ⟨i, ⟨h1, by omega⟩, hc⟩

theorem fillEnd_le {s : State} (first count : PixelCount) : fillEnd s first count ≤ s.n.toNat := by
  unfold fillEnd; split
  · exact le_refl _
  · exact Nat.min_le_right _ _

theorem fillWrites_lt {s : State} (hv : validOrder s.order = true) {first count : PixelCount} {color : Color}
    {c : Host.Cell} (hc : c ∈ fillWrites s first.toNat (fillEnd s first count) color) : c.1 < s.len := by
  obtain ⟨i, -, h2, hc⟩ := mem_fillWrites.1 hc
  exact placeWrites_lt hv (Nat.lt_of_lt_of_le h2 (fillEnd_le _ _)) hc

theorem mem_clearWrites {s : State} {c : Host.Cell} : c ∈ clearWrites s ↔ c.1 < s.len ∧ c.2 = 0 := by
  obtain ⟨a, v⟩ := c
  simp only [clearWrites, List.mem_map, List.mem_range, Prod.mk.injEq]
  constructor
  · rintro ⟨x, hx, rfl, rfl⟩; exact ⟨hx, rfl⟩
  · rintro ⟨h, rfl⟩; exact ⟨a, h, rfl, rfl⟩

/-! ### Reading a record -/

/-- The colour the record of pixel `i` holds (41_pixel_access.md R112), as data. -/
def State.pixelAt (s : State) (i : Nat) : Color :=
  pack { w := if s.channels = 4 then s.byteAt (s.recordBase i + woffOf s.order) else 0
         r := s.byteAt (s.recordBase i + roffOf s.order)
         g := s.byteAt (s.recordBase i + goffOf s.order)
         b := s.byteAt (s.recordBase i + boffOf s.order) }

theorem withPixel_of_lt {s : State} (hv : validOrder s.order = true) {i : Nat} (hi : i < s.n.toNat)
    (k : Color → Answer State) : withPixel s i k = k (s.pixelAt i) := by
  obtain ⟨hr, hg, hb, hw, -⟩ := validOrder_offsets hv
  simp only [withPixel, State.pixelAt, withByte_of_lt (State.recordBase_add_lt hi hr),
    withByte_of_lt (State.recordBase_add_lt hi hg), withByte_of_lt (State.recordBase_add_lt hi hb),
    withByte_of_lt (State.recordBase_add_lt hi hw)]
  split <;> rfl

/-- A record that is read whole hands on the colour it holds. -/
theorem withPixel_next {s t : State} {i : Nat} {k : Color → Answer State} (h : withPixel s i k = .next t) :
    k (s.pixelAt i) = .next t := by
  unfold withPixel at h
  have h := (withByte_next h).2
  have h := (withByte_next h).2
  have h := (withByte_next h).2
  unfold State.pixelAt
  split at h
  · rename_i hc
    simpa only [hc, if_true] using (withByte_next h).2
  · rename_i hc
    simpa only [hc, if_false] using h

end Sys2Proof.Machine
end

