-- ==== Sys2Proof/Laws/PerInstr.lean ====
section
/-! SUPPORT. Statements made once per command. `RowMatch`: the word of a command matches its row of the opcode table,
(word & mask) == match. -/

namespace Sys2Proof.Laws.RowMatch

/-- The word of `i` matches every row of the opcode table that has `i`'s mnemonic, and there is such a row. -/
def Statement (i : Instr) : Prop :=
  ∃ row ∈ opcodeTable, row.mnemonic = i.mnemonic ∧ encode i &&& row.mask = row.pattern

/-- How a statement is shown: name the row, and write its mask and pattern as packed words. -/
theorem of_row {i : Instr} {row : OpcodeRow} (hr : row ∈ opcodeTable) (hm : row.mnemonic = i.mnemonic)
    (he : encode i &&& row.mask = row.pattern) : Statement i := ⟨row, hr, hm, he⟩

theorem nop : Statement .nop := of_row (row := ⟨"NOP", 0x00000000000000000, 0xFFFFFFFFFFFFFFFFF⟩) (by decide) rfl (by decide)

theorem cfg (count : PixelCount) (order : BitVec 8) (speed : Speed) : Statement (.cfg count order speed) :=
  of_row (row := ⟨"CFG", packWord 0x1 0 0 0, packWord 0xF 0 0xFE00 0xFFFFFFFF⟩) (by decide) rfl (by
    simp [encode, packWord_and, cfgTypeField_and_mbz])

theorem setpix (index : PixelCount) (color : Color) : Statement (.setpix index color) :=
  of_row (row := ⟨"SETPIX", packWord 0x2 0 0 0, packWord 0xF 0 0xFFFF 0⟩) (by decide) rfl (by
    simp [encode, packWord_and])

theorem getpix (index : PixelCount) : Statement (.getpix index) :=
  of_row (row := ⟨"GETPIX", packWord 0x3 0 0 0, packWord 0xF 0 0xFFFF 0xFFFFFFFF⟩) (by decide) rfl (by
    simp [encode, packWord_and])

theorem fill (color : Color) (first count : PixelCount) : Statement (.fill color first count) :=
  of_row (row := ⟨"FILL", packWord 0x4 0 0 0, packWord 0xF 0 0 0⟩) (by decide) rfl (by
    simp [encode, packWord_and])

theorem clear : Statement .clear := of_row (row := ⟨"CLEAR", 0x50000000000000000, 0xFFFFFFFFFFFFFFFFF⟩) (by decide) rfl (by decide)

theorem showFrame : Statement .showFrame :=
  of_row (row := ⟨"SHOW", 0x60000000000000000, 0xFFFFFFFFFFFFFFFFF⟩) (by decide) rfl (by decide)

theorem canshow : Statement .canshow :=
  of_row (row := ⟨"CANSHOW", 0x70000000000000000, 0xFFFFFFFFFFFFFFFFF⟩) (by decide) rfl (by decide)

theorem numpix : Statement .numpix :=
  of_row (row := ⟨"NUMPIX", 0x80000000000000000, 0xFFFFFFFFFFFFFFFFF⟩) (by decide) rfl (by decide)

end Sys2Proof.Laws.RowMatch
end

