-- ==== Sys2Proof/Laws/Step.lean ====
section
/-! SUPPORT. What a meaning and what a step can do, said once; proofs about all steps cite `exec_effect` and
`step_effect` instead of unfolding them. -/

namespace Sys2Proof.Machine

/-- The three things an accepted command can do (40_config_query.md R95(c)). -/
inductive ExecEffect (i : Instr) (s t : State) : Prop where
  /-- It answers, after writing some bytes of the buffer, perhaps none. -/
  | answer (ws : List Host.Cell) (code : RspCode) (data : BitVec 32) (inRange : ∀ c ∈ ws, c.1 < s.len)
      (eq : t = (s.withRaw ws).respond code data)
  /-- A CFG with a valid order loads the configuration and answers. -/
  | configure (count : PixelCount) (order : BitVec 8) (speed : Speed) (cmd : i = .cfg count order speed)
      (valid : validOrder order = true) (eq : t = (s.configure count order speed).respond .ok 0)
  /-- A SHOW with pixels to send starts waiting, without an answer. -/
  | startsShow (cmd : i = .showFrame) (pixels : s.n ≠ 0) (eq : t = s.startWait.noResponse)

theorem exec_effect {i : Instr} {s t : State} (h : exec i s = .next t) : ExecEffect i s t := by
  have quiet {code : RspCode} {data : BitVec 32} (h : (.next (s.respond code data) : Answer State) = .next t) :
      ExecEffect i s t := .answer [] code data (by simp) (by cases h; rfl)
  have writes {ws : List Host.Cell}
      (h : withWrites s ws (fun u => .next (u.respond .ok 0)) = .next t) : ExecEffect i s t := by
    obtain ⟨hw, h⟩ := withWrites_next h
    exact .answer ws .ok 0 hw (by cases h; rfl)
  cases i with
  | nop => exact quiet h
  | cfg count order speed =>
    simp only [exec, execCfg] at h
    split at h
    · exact .configure count order speed rfl ‹_› (by cases h; rfl)
    · exact quiet h
  | setpix index color =>
    simp only [exec, execSetpix] at h
    split at h
    · exact writes h
    · exact quiet h
  | getpix index =>
    simp only [exec, execGetpix] at h
    split at h
    · exact quiet (withPixel_next h)
    · exact quiet h
  | fill color first count =>
    simp only [exec, execFill] at h
    split at h
    · exact writes h
    · exact quiet h
  | clear => exact writes h
  | showFrame =>
    simp only [exec, execShow] at h
    split at h
    · exact quiet h
    · exact .startsShow rfl ‹_› (by cases h; rfl)
  | canshow => exact quiet h
  | numpix => exact quiet h

/-- Everything one tick can do (42_frame_transmit.md section 7), with the host moved on to its next tick. -/
inductive StepEffect (s t : State) : Prop where
  | reset (rst : s.ports.rst = true) (eq : t = s.nextHostTick.afterReset)
  | nothing (rst : s.ports.rst = false) (st : s.st = .idle) (valid : s.ports.cmdValid = false)
      (eq : t = s.nextHostTick.noResponse)
  | illegal (rst : s.ports.rst = false) (st : s.st = .idle) (valid : s.ports.cmdValid = true) (e : DecodeError)
      (word : decode s.ports.cmd = .error e) (eq : t = s.nextHostTick.respond .illegalCmd 0)
  | command (rst : s.ports.rst = false) (st : s.st = .idle) (valid : s.ports.cmdValid = true) (i : Instr)
      (word : decode s.ports.cmd = .ok i) (run : exec i s.nextHostTick = .next t)
  | waiting (rst : s.ports.rst = false) (st : s.st = .wait) (early : canShow s = false)
      (eq : t = s.nextHostTick.noResponse)
  | frameStart (rst : s.ports.rst = false) (st : s.st = .wait) (ready : canShow s = true) (pixels : 0 < s.len)
      (eq : t = (s.nextHostTick.startPulse 0 7 (s.byteAt 0)).noResponse)
  | highGoesOn (rst : s.ports.rst = false) (st : s.st = .txh) (cnt : s.cnt ≠ 1)
      (eq : t = s.nextHostTick.countDown.noResponse)
  | highEnds (rst : s.ports.rst = false) (st : s.st = .txh) (cnt : s.cnt = 1) (addr : s.bytePtr < s.len)
      (eq : t = (s.nextHostTick.startLow s.curBit).noResponse)
  | lowGoesOn (rst : s.ports.rst = false) (st : s.st = .txl) (cnt : 1 < s.cnt)
      (eq : t = s.nextHostTick.countDown.noResponse)
  | nextBit (rst : s.ports.rst = false) (st : s.st = .txl) (cnt : s.cnt ≤ 1) (bit : s.bitIdx ≠ 0)
      (addr : s.bytePtr < s.len)
      (eq : t = (s.nextHostTick.startPulse s.bytePtr (s.bitIdx - 1) (s.byteAt s.bytePtr)).noResponse)
  | nextByte (rst : s.ports.rst = false) (st : s.st = .txl) (cnt : s.cnt ≤ 1) (bit : s.bitIdx = 0)
      (addr : s.bytePtr + 1 < s.len)
      (eq : t = (s.nextHostTick.startPulse (s.bytePtr + 1) 7 (s.byteAt (s.bytePtr + 1))).noResponse)
  | frameEnd (rst : s.ports.rst = false) (st : s.st = .txl) (cnt : s.cnt ≤ 1) (bit : s.bitIdx = 0)
      (addr : s.len ≤ s.bytePtr + 1) (eq : t = s.nextHostTick.endFrame.respond .ok 0)

theorem State.nextHostTick_len (s : State) : s.nextHostTick.len = s.len :=
  State.len_congr (by simp) (by simp)

theorem State.nextHostTick_byteAt (s : State) (addr : Nat) : s.nextHostTick.byteAt addr = s.byteAt addr :=
  State.byteAt_congr (by simp) addr

theorem canShow_congr {s t : State} (hp : t.par = s.par) (hs : t.speed = s.speed) (hl : t.lv = s.lv)
    (he : t.tend = s.tend) (hn : t.now = s.now) : canShow t = canShow s := by
  simp only [canShow, State.timing_congr hp hs, hl, he, hn]

theorem State.nextHostTick_canShow (s : State) : canShow s.nextHostTick = canShow s :=
  canShow_congr (by simp) (by simp) (by simp) (by simp) (by simp)

theorem step_effect {s t : State} (h : step s = .next t) : StepEffect s t := by
  simp only [step, tick] at h
  split at h
  · exact .reset ‹_› (by cases h; rfl)
  · rename_i hr
    simp only [Bool.not_eq_true] at hr
    cases hst : s.st with
    | idle =>
      simp only [hst, idleTick] at h
      split at h
      · rename_i hv
        simp only [acceptWord] at h
        cases hd : decode s.ports.cmd with
        | ok i => rw [hd] at h; exact .command hr hst hv i hd h
        | error e => rw [hd] at h; exact .illegal hr hst hv e hd (by cases h; rfl)
      · rename_i hv
        exact .nothing hr hst (by simpa using hv) (by cases h; rfl)
    | wait =>
      simp only [hst, waitTick, State.nextHostTick_canShow] at h
      split at h
      · obtain ⟨ha, h⟩ := withByte_next h
        rw [State.nextHostTick_len] at ha
        rw [State.nextHostTick_byteAt] at h
        exact .frameStart hr hst ‹_› ha (by cases h; rfl)
      · rename_i hc
        exact .waiting hr hst (by simpa using hc) (by cases h; rfl)
    | txh =>
      simp only [hst, txhTick] at h
      split at h
      · rename_i hc
        obtain ⟨ha, h⟩ := withByte_next h
        rw [State.nextHostTick_cnt] at hc
        rw [State.nextHostTick_len, State.nextHostTick_bytePtr] at ha
        rw [State.nextHostTick_byteAt, State.nextHostTick_bytePtr, State.nextHostTick_bitIdx] at h
        exact .highEnds hr hst hc ha (by cases h; rfl)
      · rename_i hc
        rw [State.nextHostTick_cnt] at hc
        exact .highGoesOn hr hst hc (by cases h; rfl)
    | txl =>
      simp only [hst, txlTick] at h
      split at h
      · rename_i hc
        rw [State.nextHostTick_cnt] at hc
        exact .lowGoesOn hr hst hc (by cases h; rfl)
      · rename_i hc
        rw [State.nextHostTick_cnt] at hc
        have hc : s.cnt ≤ 1 := Nat.not_lt.1 hc
        split at h
        · rename_i hb
          obtain ⟨ha, h⟩ := withByte_next h
          rw [State.nextHostTick_bitIdx] at hb
          rw [State.nextHostTick_len, State.nextHostTick_bytePtr] at ha
          rw [State.nextHostTick_byteAt, State.nextHostTick_bytePtr, State.nextHostTick_bitIdx] at h
          exact .nextBit hr hst hc hb ha (by cases h; rfl)
        · rename_i hb
          rw [State.nextHostTick_bitIdx] at hb
          have hb : s.bitIdx = 0 := not_not.1 hb
          split at h
          · obtain ⟨ha, h⟩ := withByte_next h
            rw [State.nextHostTick_len, State.nextHostTick_bytePtr] at ha
            rw [State.nextHostTick_byteAt, State.nextHostTick_bytePtr] at h
            exact .nextByte hr hst hc hb ha (by cases h; rfl)
          · rename_i ha
            rw [State.nextHostTick_bytePtr, State.nextHostTick_len] at ha
            exact .frameEnd hr hst hc hb (Nat.not_lt.1 ha) (by cases h; rfl)

/-! ### The steps forward: what a step answers, by the state it starts in -/

theorem step_reset {s : State} (h : s.ports.rst = true) : step s = .next s.nextHostTick.afterReset := by
  simp only [step, tick, h, if_true]

theorem step_nothing {s : State} (hr : s.ports.rst = false) (hst : s.st = .idle) (hv : s.ports.cmdValid = false) :
    step s = .next s.nextHostTick.noResponse := by
  simp [step, tick, hr, hst, idleTick, hv]

theorem step_accepts {s : State} {w : CmdWord} (h : Accepts s w) : step s = acceptWord w s.nextHostTick := by
  obtain ⟨hr, hst, hv, rfl⟩ := h
  simp [step, tick, hr, hst, idleTick, hv]

theorem step_command {s : State} {w : CmdWord} {i : Instr} (h : Accepts s w) (hd : decode w = .ok i) :
    step s = exec i s.nextHostTick := by
  rw [step_accepts h, acceptWord, hd]

theorem step_illegal {s : State} {w : CmdWord} {e : DecodeError} (h : Accepts s w) (hd : decode w = .error e) :
    step s = .next (s.nextHostTick.respond .illegalCmd 0) := by
  rw [step_accepts h, acceptWord, hd]

theorem step_waiting {s : State} (hr : s.ports.rst = false) (hst : s.st = .wait) (hc : canShow s = false) :
    step s = .next s.nextHostTick.noResponse := by
  simp [step, tick, hr, hst, waitTick, State.nextHostTick_canShow, hc]

theorem step_frameStart {s : State} (hr : s.ports.rst = false) (hst : s.st = .wait) (hc : canShow s = true)
    (hl : 0 < s.len) : step s = .next (s.nextHostTick.startPulse 0 7 (s.byteAt 0)).noResponse := by
  have hl' : 0 < s.nextHostTick.len := by rwa [State.nextHostTick_len]
  simp [step, tick, hr, hst, waitTick, State.nextHostTick_canShow, hc, withByte_of_lt hl', State.nextHostTick_byteAt]

theorem step_highGoesOn {s : State} (hr : s.ports.rst = false) (hst : s.st = .txh) (hc : s.cnt ≠ 1) :
    step s = .next s.nextHostTick.countDown.noResponse := by
  simp [step, tick, hr, hst, txhTick, hc]

theorem step_highEnds {s : State} (hr : s.ports.rst = false) (hst : s.st = .txh) (hc : s.cnt = 1)
    (ha : s.bytePtr < s.len) : step s = .next (s.nextHostTick.startLow s.curBit).noResponse := by
  have ha' : s.bytePtr < s.nextHostTick.len := by rwa [State.nextHostTick_len]
  simp [step, tick, hr, hst, txhTick, hc, withByte_of_lt ha', State.nextHostTick_byteAt, State.curBit]

theorem step_lowGoesOn {s : State} (hr : s.ports.rst = false) (hst : s.st = .txl) (hc : 1 < s.cnt) :
    step s = .next s.nextHostTick.countDown.noResponse := by
  simp [step, tick, hr, hst, txlTick, hc]

theorem step_nextBit {s : State} (hr : s.ports.rst = false) (hst : s.st = .txl) (hc : s.cnt ≤ 1)
    (hb : s.bitIdx ≠ 0) (ha : s.bytePtr < s.len) :
    step s = .next (s.nextHostTick.startPulse s.bytePtr (s.bitIdx - 1) (s.byteAt s.bytePtr)).noResponse := by
  have ha' : s.bytePtr < s.nextHostTick.len := by rwa [State.nextHostTick_len]
  simp only [step, tick, hr, hst, txlTick, State.nextHostTick_cnt, gt_iff_lt, Nat.not_lt.2 hc, if_false,
    State.nextHostTick_bytePtr, State.nextHostTick_bitIdx, withByte_of_lt ha', State.nextHostTick_byteAt,
    Bool.false_eq_true]
  exact if_pos hb

theorem step_nextByte {s : State} (hr : s.ports.rst = false) (hst : s.st = .txl) (hc : s.cnt ≤ 1)
    (hb : s.bitIdx = 0) (ha : s.bytePtr + 1 < s.len) :
    step s = .next (s.nextHostTick.startPulse (s.bytePtr + 1) 7 (s.byteAt (s.bytePtr + 1))).noResponse := by
  have ha' : s.bytePtr + 1 < s.nextHostTick.len := by rwa [State.nextHostTick_len]
  simp [step, tick, hr, hst, txlTick, Nat.not_lt.2 hc, hb, ha', withByte_of_lt ha', State.nextHostTick_byteAt]

theorem step_frameEnd {s : State} (hr : s.ports.rst = false) (hst : s.st = .txl) (hc : s.cnt ≤ 1)
    (hb : s.bitIdx = 0) (ha : s.len ≤ s.bytePtr + 1) :
    step s = .next (s.nextHostTick.endFrame.respond .ok 0) := by
  simp [step, tick, hr, hst, txlTick, Nat.not_lt.2 hc, hb, State.nextHostTick_len, Nat.not_lt.2 ha]

/-! ### Runs -/

theorem runTicks_succ {k : Nat} {s t : State} (h : step s = .next t) : runTicks (k + 1) s = runTicks k t := by
  simp only [runTicks, h]

/-- A run can be cut anywhere. -/
theorem runTicks_add {k m : Nat} {s t : State} (h : runTicks k s = .next t) : runTicks (k + m) s = runTicks m t := by
  induction k generalizing s with
  | zero => rw [Nat.zero_add]; cases h; rfl
  | succ k ih =>
    rw [Nat.succ_add]
    simp only [runTicks] at h ⊢
    cases hs : step s with
    | next u => rw [hs] at h; exact ih h
    | fault r => cases r
    | refused r => rw [hs] at h; cases h

/-- While `rst` stays low, one more tick leaves it low: the host only moves along its list. -/
theorem HostKeepsResetLow.ports {s : State} (h : HostKeepsResetLow s) : s.ports.rst = false := by
  unfold State.ports
  split
  · rfl
  · rename_i p rest hp
    exact h p (by simp [hp])

theorem HostKeepsResetLow.next {s t : State} (h : HostKeepsResetLow s) (ht : t.host = s.nextHostTick.host) :
    HostKeepsResetLow t := by
  intro p hp
  rw [ht, State.nextHostTick_host] at hp
  split at hp
  · exact h p hp
  · exact h p (List.mem_of_mem_tail hp)

end Sys2Proof.Machine
end

