-- ==== Sys2Proof/Tests/Slice0.lean ====
section
/-! SUPPORT. The model's own tests: refused terms, decoding of words written out from 30_encoding.md, one step per test with the values of
95_test_vectors.md (record TINY), and a witness for the hypotheses of every statement. -/

namespace Sys2Proof.Tests

open Sys2Proof.Machine

/-! ### What WellFormed and Decode refuse -/

/-- What `Params.make` answers. -/
def flawOf (t u : Timing) (tickNs : Option Rat := none) : Option ParamFlaw :=
  match Params.make 16 t u tickNs with
  | .ok _ => none
  | .error f => some f

theorem test_refuse_zero_phase : flawOf ⟨0, 4, 3, 1, 6⟩ ⟨2, 6, 5, 3, 10⟩ = some .zeroPhase := by decide
theorem test_refuse_unequal_periods : flawOf ⟨1, 3, 3, 2, 6⟩ ⟨2, 6, 5, 3, 10⟩ = some .unequalPeriods := by decide
theorem test_refuse_equal_high_times : flawOf ⟨1, 3, 1, 3, 6⟩ ⟨2, 6, 5, 3, 10⟩ = some .equalHighTimes := by decide
theorem test_refuse_zero_latch : flawOf ⟨1, 3, 3, 1, 6⟩ ⟨2, 6, 5, 3, 0⟩ = some .zeroLatch := by decide
theorem test_refuse_zero_tick : flawOf ⟨1, 3, 3, 1, 6⟩ ⟨2, 6, 5, 3, 10⟩ (some 0) = some .nonPositiveTick := by decide
theorem test_accept_tiny : flawOf ⟨1, 3, 3, 1, 6⟩ ⟨2, 6, 5, 3, 10⟩ = none := by decide

-- 00_scope.md R6: with `TICK_NS` = 50 the bit periods of REF20 are 1250 ns and 2500 ns, its latch gap 300 µs.
theorem test_ref20_durations :
    Config.ref20.nanoseconds Config.ref20.standard.tbit = some 1250 ∧
    Config.ref20.nanoseconds Config.ref20.slow.tbit = some 2500 ∧
    Config.ref20.nanoseconds Config.ref20.slow.tlatch = some 300000 := by
  norm_num [Params.nanoseconds, Config.ref20, Timing.tbit]

/-- What the decoder rejects a word for. -/
def rejects (w : CmdWord) : Option DecodeError :=
  match decode w with
  | .ok _ => none
  | .error e => some e

-- 95_test_vectors.md V30 to V40.
theorem test_reject_reserved_low : rejects 0x90000000000000000 = some (.reservedOpcode 9) := by decide
theorem test_reject_reserved_high : rejects 0xFFFFFFFFFFFFFFFFF = some (.reservedOpcode 15) := by decide
theorem test_reject_nop_a : rejects 0x00001000000000000 = some (.mustBeZero .a) := by decide
theorem test_reject_cfg_b9 : rejects 0x10002025200000000 = some (.mustBeZero .b) := by decide
theorem test_reject_cfg_d : rejects 0x10002005200000001 = some (.mustBeZero .d) := by decide
theorem test_reject_setpix_b : rejects 0x20000000100000005 = some (.mustBeZero .b) := by decide
theorem test_reject_getpix_d : rejects 0x30000000000000001 = some (.mustBeZero .d) := by decide
theorem test_reject_getpix_b : rejects 0x30000800000000000 = some (.mustBeZero .b) := by decide
theorem test_reject_clear_a : rejects 0x50001000000000000 = some (.mustBeZero .a) := by decide
theorem test_reject_show_d : rejects 0x60000000000000001 = some (.mustBeZero .d) := by decide
theorem test_reject_canshow_b : rejects 0x70000000100000000 = some (.mustBeZero .b) := by decide
theorem test_reject_numpix_a : rejects 0x88000000000000000 = some (.mustBeZero .a) := by decide
-- 95_test_vectors.md V41 to V44 (order bytes), V46.
theorem test_invalid_orders : [0x00, 0x07, 0xFF, 0x1A].map validOrder = [false, false, false, false] := by decide
theorem test_thirty_valid_orders :
    ((List.range 256).filter fun n => validOrder (BitVec.ofNat 8 n)).length = 30 := by decide

/-! ### Words written out field by field and bit by bit from 30_encoding.md R60 to R64 -/

theorem test_decode_nop : decode (0b0000#4 ++ 0#16 ++ 0#16 ++ 0#32) = .ok .nop := by decide
theorem test_decode_cfg :
    decode (0b0001#4 ++ 0b0000000000111100#16 ++ 0b0000000#7 ++ 0b1#1 ++ 0b11010010#8 ++ 0#32)
      = .ok (.cfg 60 0xD2 .slow) := by decide
theorem test_decode_setpix :
    decode (0b0010#4 ++ 0b0000000000000001#16 ++ 0#16 ++ 0b00000000111111111000000001000000#32)
      = .ok (.setpix 1 0x00FF8040) := by decide
theorem test_decode_getpix : decode (0b0011#4 ++ 0b1000000000000001#16 ++ 0#16 ++ 0#32) = .ok (.getpix 0x8001) := by decide
theorem test_decode_fill :
    decode (0b0100#4 ++ 0b0000000000001000#16 ++ 0b1111111111111111#16 ++ 0b10101010101110111100110011011101#32)
      = .ok (.fill 0xAABBCCDD 8 65535) := by decide
theorem test_decode_clear : decode (0b0101#4 ++ 0#16 ++ 0#16 ++ 0#32) = .ok .clear := by decide
theorem test_decode_show : decode (0b0110#4 ++ 0#16 ++ 0#16 ++ 0#32) = .ok .showFrame := by decide
theorem test_decode_canshow : decode (0b0111#4 ++ 0#16 ++ 0#16 ++ 0#32) = .ok .canshow := by decide
theorem test_decode_numpix : decode (0b1000#4 ++ 0#16 ++ 0#16 ++ 0#32) = .ok .numpix := by decide
theorem test_table_word : decodeTableWord 72 0x1003C01D200000000 = some (.cfg 60 0xD2 .slow) := by decide
theorem test_table_word_too_wide : decodeTableWord 72 0x100000000000000000 = none := by decide

/-! ### States of the vectors, record TINY -/

/-- Right after reset. -/
def blank : State := { State.reset with par := Config.tiny }

/-- The state before V30 to V44: `CFG 2, GRB, STD`, `SETPIX 0, 0x00112233`. -/
def pair : State := { blank with n := 2, order := 0x52, raw := [(0, 0x22), (1, 0x11), (2, 0x33)], now := 2 }

/-- Two pixels of four channels, order RGBW, every byte 0xFF (V75). -/
def pairW : State :=
  { blank with n := 2, order := 0xC6, now := 2,
               raw := [(0, 0xFF), (1, 0xFF), (2, 0xFF), (3, 0xFF), (4, 0xFF), (5, 0xFF), (6, 0xFF), (7, 0xFF)] }

/-- V20 at tick 10: one GRB pixel, `raw = [80 00 00]`. -/
def single : State := { blank with n := 1, order := 0x52, raw := [(0, 0x80)], now := 10 }

/-- V20 at tick `now` of its frame. -/
def inFrame (now : Nat) (st : SeqState) (addr : Nat) (bit : BitVec 3) (cnt : Nat) : State :=
  { single with now := now, st := st, bytePtr := addr, bitIdx := bit, cnt := cnt }

/-- V20 and V24 `k` ticks after the frame end at 108. -/
def afterFrame (k : Nat) : State := { single with lv := true, tend := 108, now := 108 + k }

/-- What a transition answers, seen through `f`. -/
def see {α : Type} (f : State → α) : Answer State → Option α
  | .next t => some (f t)
  | .fault _ => none
  | .refused _ => none

/-- The response ports. -/
def response (t : State) : Bool × BitVec 2 × BitVec 32 := (t.rspv, t.rspc, t.rspd)

/-- The step that accepts a word. -/
def sends (s : State) (w : CmdWord) : Answer State := step (s.presents (.once w))

/-! ### One step each -/

theorem test_nop : see response (sends pair 0x0) = some (true, 0, 0) := by decide
theorem test_cfg_capacity :
    see (fun t => (t.n, t.order, t.rawBytes.length, response t)) (sends blank 0x10004001B00000000)
      = some (4, 0x1B, 16, true, 0, 0) ∧
    see (fun t => (t.n, t.rawBytes, response t)) (sends blank 0x1FFFF000600000000) = some (0, [], true, 0, 0) := by
  constructor <;> decide
theorem test_bad_order_before_capacity :
    see (fun t => (t.n, t.order, response t)) (sends pair 0x10064001A00000000) = some (2, 0x52, true, 2, 0) := by decide
theorem test_setpix_grb :
    see (fun t => t.rawBytes) (sends { pair with raw := [] } 0x20001000000FF8040)
      = some [0x00, 0x00, 0x00, 0x80, 0xFF, 0x40] := by decide
theorem test_setpix_rgbw :
    see (fun t => t.rawBytes) (sends { pairW with raw := [] } 0x200010000AABBCCDD)
      = some [0x00, 0x00, 0x00, 0x00, 0xBB, 0xCC, 0xDD, 0xAA] := by decide
theorem test_getpix_drops_white :
    see response (sends { pair with order := 0x09, raw := [(3, 0xBB), (4, 0xDD), (5, 0xCC)] } 0x30001000000000000)
      = some (true, 0, 0x00BBCCDD) := by decide
theorem test_getpix_out_of_range : see response (sends pair 0x30002000000000000) = some (true, 0, 0) := by decide
theorem test_fill_no_wrap :
    see (fun t => t.rawBytes) (sends pair 0x40001FFFF00010203)
      = some [0x22, 0x11, 0x33, 0x02, 0x01, 0x03] := by decide
theorem test_fill_zero_count_fills_to_end :
    see (fun t => t.rawBytes) (sends pair 0x40000000000010203)
      = some [0x02, 0x01, 0x03, 0x02, 0x01, 0x03] := by decide
theorem test_clear :
    see (fun t => (t.n, t.order, t.rawBytes)) (sends pairW 0x50000000000000000)
      = some (2, 0xC6, [0, 0, 0, 0, 0, 0, 0, 0]) := by decide
theorem test_show_inert :
    see (fun t => (t.st, t.lv, response t)) (sends blank 0x60000000000000000) = some (.idle, false, true, 0, 0) := by decide
theorem test_show_waits :
    see (fun t => (t.st, t.rspv, t.now)) (sends single 0x60000000000000000) = some (.wait, false, 11) := by decide
theorem test_canshow_one_tick_early : see response (sends (afterFrame 5) 0x70000000000000000) = some (true, 0, 0) := by decide
theorem test_canshow_on_time : see response (sends (afterFrame 6) 0x70000000000000000) = some (true, 0, 1) := by decide
theorem test_numpix : see response (sends pair 0x80000000000000000) = some (true, 0, 2) := by decide
theorem test_illegal_word :
    see (fun t => (t.rawBytes, response t)) (sends pair 0x50001000000000000)
      = some ([0x22, 0x11, 0x33, 0x00, 0x00, 0x00], true, 1, 0) := by decide

/-! ### The sequencer at the ticks of V20 -/

/-- The sequencer's registers. -/
def seq (t : State) : SeqState × Nat × BitVec 3 × Nat := (t.st, t.bytePtr, t.bitIdx, t.cnt)

theorem test_frame_starts : see seq (step (inFrame 11 .wait 0 0 0)) = some (.txh, 0, 7, 3) := by decide
theorem test_wait_goes_on : see (fun t => t.st) (step { afterFrame 5 with st := .wait }) = some .wait := by decide
theorem test_high_goes_on : see seq (step (inFrame 12 .txh 0 7 3)) = some (.txh, 0, 7, 2) := by decide
theorem test_high_ends : see seq (step (inFrame 14 .txh 0 7 1)) = some (.txl, 0, 7, 1) := by decide
theorem test_next_bit : see seq (step (inFrame 15 .txl 0 7 1)) = some (.txh, 0, 6, 1) := by decide
theorem test_low_of_zero_bit : see seq (step (inFrame 16 .txh 0 6 1)) = some (.txl, 0, 6, 3) := by decide
theorem test_next_byte : see seq (step (inFrame 43 .txl 0 0 1)) = some (.txh, 1, 7, 1) := by decide
theorem test_frame_ends :
    see (fun t => (t.st, t.tend, canShow t, response t)) (step (inFrame 107 .txl 2 0 1))
      = some (.idle, 108, false, true, 0, 0) := by decide
theorem test_reset_in_frame :
    see (fun t => (t.n, t.order, t.st, t.lv, t.now, t.rspv))
        (step ((inFrame 13 .txh 0 7 2).presents { rst := true, cmdValid := true, cmd := 0, hold := false }))
      = some (0, 0x06, .idle, false, 0, false) := by decide
theorem test_held_command_waits :
    see (fun t => t.host.length) (step ((inFrame 13 .txh 0 7 2).presents (.held 0))) = some 1 := by decide

/-! ### The host's own two functions -/

theorem test_fetch_word_runs :
    see response (step (State.reset.withFetchWord 72 0x70000000000000000)) = some (true, 0, 1) := by decide
theorem test_fetch_word_cfg :
    see response (step (State.reset.withFetchWord 72 0x10000000000000000)) = some (true, 2, 0) := by decide

/-! ### Witnesses: states and operands that meet the hypotheses of each statement

The number of the statement stands before its witnesses; several clauses, or several ranges of one clause, have one witness each, at the boundary. -/

/-- The state in which the host presents one word. -/
def Presented (s : State) (w : CmdWord) : Prop := Accepts (s.presents (.once w)) w

theorem presented {s : State} {w : CmdWord} (h : s.st = .idle) : Presented s w := ⟨rfl, h, rfl, rfl⟩

-- O2
theorem witness_EncodeOfDecodeIsIdentity : decode 0x10002005200000000 = .ok (.cfg 2 0x52 .standard) := by decide

-- O3
theorem witness_IllegalWords_reserved : Presented pair 0x90000000000000000 ∧ IllegalWord 0x90000000000000000 :=
  ⟨presented rfl, by unfold IllegalWord; decide⟩
theorem witness_IllegalWords_formatZ : Presented pair 0x00000000000000001 ∧ IllegalWord 0x00000000000000001 :=
  ⟨presented rfl, by unfold IllegalWord; decide⟩
theorem witness_IllegalWords_cfg : Presented pair 0x10000020000000000 ∧ IllegalWord 0x10000020000000000 :=
  ⟨presented rfl, by unfold IllegalWord; decide⟩
theorem witness_IllegalWords_setpix : Presented pair 0x20000000100000000 ∧ IllegalWord 0x20000000100000000 :=
  ⟨presented rfl, by unfold IllegalWord; decide⟩
theorem witness_IllegalWords_getpix : Presented pair 0x30000000000000001 ∧ IllegalWord 0x30000000000000001 :=
  ⟨presented rfl, by unfold IllegalWord; decide⟩

-- O4
theorem witness_DecodeAgreesWithOpcodeTable : (⟨"NOP", 0, 0xFFFFFFFFFFFFFFFFF⟩ : OpcodeRow) ∈ opcodeTable := by decide

-- O6
theorem witness_ValidOrderCodes_invalid : validOrder 0x00 = false ∧ validOrder 0xFF = false := by decide
theorem witness_ValidOrderCodes_rows :
    ((0x06, 0, 0, 1, 2) : BitVec 8 × Nat × Nat × Nat × Nat) ∈ orderCodes3 ∧
    ((0xE4, 3, 2, 1, 0) : BitVec 8 × Nat × Nat × Nat × Nat) ∈ orderCodes4 := by decide

-- O8
theorem witness_NopOnlyAnswersOk : (inFrame 12 .txh 0 7 3).st ≠ .idle := by decide

-- O9, O10
theorem witness_Cfg_fits : validOrder 0x1B = true ∧ (4#16).toNat * channelsOf 0x1B ≤ blank.par.maxBytes := by decide
-- O9
theorem witness_Cfg_over_capacity : validOrder 0x06 = true ∧ ¬ (6#16).toNat * channelsOf 0x06 ≤ blank.par.maxBytes := by decide
theorem witness_Cfg_bad_order : validOrder 0x07 ≠ true := by decide
theorem witness_Cfg_others :
    (∀ count order speed, Instr.nop ≠ .cfg count order speed) ∧ exec .nop pair = .next (pair.respond .ok 0) :=
  ⟨fun _ _ _ h => (by cases h), rfl⟩
-- O11
theorem witness_OverCapacityCfg :
    validOrder 0x06 = true ∧ validOrder 0x1B = true ∧ blank.par.maxBytes < (6#16).toNat * channelsOf 0x06 ∧
    (4#16).toNat * channelsOf 0x1B ≤ blank.par.maxBytes := by decide

-- O13
theorem witness_Setpix_in_range : validOrder pair.order = true ∧ pair.raw.wf = true ∧ (1#16).toNat < pair.n.toNat := by decide
theorem witness_Setpix_out_of_range : validOrder pair.order = true ∧ pair.raw.wf = true ∧ ¬ (2#16).toNat < pair.n.toNat := by decide
-- O14
theorem witness_Getpix_white : validOrder pairW.order = true ∧ (1#16).toNat < pairW.n.toNat ∧ pairW.channels = 4 := by decide
theorem witness_Getpix_no_white : validOrder pair.order = true ∧ (1#16).toNat < pair.n.toNat ∧ pair.channels ≠ 4 := by decide
theorem witness_Getpix_out_of_range : validOrder pair.order = true ∧ ¬ (2#16).toNat < pair.n.toNat := by decide
-- O15
theorem witness_Fill_to_end :
    validOrder pairW.order = true ∧ pairW.raw.wf = true ∧ (1#16).toNat < pairW.n.toNat ∧ fillEnd pairW 1 0 = 2 := by decide
theorem witness_Fill_clipped : (1#16).toNat < pairW.n.toNat ∧ fillEnd pairW 1 65535 = 2 := by decide
theorem witness_Fill_one_record : (0#16).toNat < pairW.n.toNat ∧ fillEnd pairW 0 1 = 1 := by decide
theorem witness_Fill_none : ¬ (2#16).toNat < pairW.n.toNat := by decide
-- O16
theorem witness_ClearZeroesEveryByte : pairW.raw.wf = true ∧ 7 < pairW.len ∧ pairW.len ≤ 8 := by decide
-- O17
theorem witness_ClearEqualsFillWithBlack : validOrder pairW.order = true ∧ pairW.raw.wf = true := by decide

-- O18
theorem witness_ShowInInertState : blank.n = 0 ∧ validOrder 0x06 = true := by decide
-- O19
theorem witness_ShowWithPixels : single.n ≠ 0 := by decide
-- O20
theorem witness_CanshowAnswersLatchQuery : (inFrame 12 .txh 0 7 3).st ≠ .idle := by decide
-- O21
theorem witness_CanShowTurnsTrue_never : single.lv = false := by decide
theorem witness_CanShowTurnsTrue_early :
    (afterFrame 5).lv = true ∧ (afterFrame 5).tend ≤ (afterFrame 5).now ∧ canShow (afterFrame 5) = false := by decide
theorem witness_CanShowTurnsTrue_on_time :
    (afterFrame 6).lv = true ∧ (afterFrame 6).tend ≤ (afterFrame 6).now ∧ canShow (afterFrame 6) = true := by decide
theorem witness_CanShowTurnsTrue_frame_end : (afterFrame 0).lv = true ∧ (afterFrame 0).now = (afterFrame 0).tend := by decide

-- O22
theorem witness_SetpixThenGetpix :
    validOrder pair.order = true ∧ pair.raw.wf = true ∧ (0#16).toNat < pair.n.toNat ∧ (1#16 : PixelCount) ≠ 0#16 := by decide
-- O23
theorem witness_InertState : blank.n = 0 ∧ ∃ i : Instr, i = .clear := ⟨rfl, .clear, rfl⟩
-- O24
theorem witness_PlaceWrites : validOrder pairW.order = true ∧ pairW.channels = 4 := by decide

-- O25
theorem witness_FrameStoreNothing_show : exec .showFrame single = .next single.startWait.noResponse := rfl
theorem witness_FrameStoreNothing_getpix : see response (exec (.getpix 1) pairW) = some (true, 0, 0xFFFFFFFF) := by decide
-- O26
theorem witness_FrameStore_setpix : see response (exec (.setpix 1 0) pairW) = some (true, 0, 0) := by decide
theorem witness_FrameStore_fill : see response (exec (.fill 0 1 0) pairW) = some (true, 0, 0) := by decide
theorem witness_FrameStore_clear : see response (exec .clear pairW) = some (true, 0, 0) := by decide

/-- The V20 states satisfy the invariant of 10_state.md R24: the last high tick, the first low tick, the last low tick. -/
theorem witness_Inv_first_high : Inv (inFrame 12 .txh 0 7 3) := by constructor <;> decide
theorem witness_Inv_first_low : Inv (inFrame 17 .txl 0 6 3) := by constructor <;> decide
theorem witness_Inv_last_low : Inv (inFrame 107 .txl 2 0 1) := by constructor <;> decide
theorem witness_Inv_wait : Inv { afterFrame 5 with st := .wait } := by constructor <;> decide

-- O27
theorem witness_WaitTick_ready :
    let s := inFrame 11 .wait 0 0 0
    s.st = .wait ∧ s.ports.rst = false ∧ 1 ≤ s.n.toNat ∧ canShow s = true := by decide
theorem witness_WaitTick_early :
    let s : State := { afterFrame 5 with st := .wait }
    s.st = .wait ∧ s.ports.rst = false ∧ 1 ≤ s.n.toNat ∧ canShow s = false := by decide
-- O28
theorem witness_HighPhase_last :
    let s := inFrame 14 .txh 0 7 1
    s.st = .txh ∧ s.ports.rst = false ∧ s.bytePtr < s.len ∧ s.cnt = 1 := by decide
theorem witness_HighPhase_whole :
    let s := inFrame 12 .txh 0 7 3
    Inv s ∧ HostKeepsResetLow s ∧ s.st = .txh ∧ s.cnt = s.highTicks s.curBit ∧ 2 < s.highTicks s.curBit :=
  ⟨witness_Inv_first_high, (by intro p hp; cases hp), rfl, by decide, by decide⟩
-- O29
theorem witness_LowPhase_goes_on :
    let s := inFrame 18 .txl 0 6 2
    s.st = .txl ∧ s.ports.rst = false ∧ s.bytePtr < s.len ∧ 1 < s.cnt := by decide
theorem witness_LowPhase_next_bit :
    let s := inFrame 39 .txl 0 1 1
    s.st = .txl ∧ s.ports.rst = false ∧ s.bytePtr < s.len ∧ s.cnt = 1 ∧ 0 < s.bitIdx.toNat := by decide
theorem witness_LowPhase_next_byte :
    let s := inFrame 75 .txl 1 0 1
    s.st = .txl ∧ s.ports.rst = false ∧ s.cnt = 1 ∧ ¬ 0 < s.bitIdx.toNat ∧ s.bytePtr + 1 < s.len := by decide
theorem witness_LowPhase_frame_end :
    let s := inFrame 107 .txl 2 0 1
    s.st = .txl ∧ s.ports.rst = false ∧ s.bytePtr < s.len ∧ s.cnt = 1 ∧ ¬ 0 < s.bitIdx.toNat ∧ ¬ s.bytePtr + 1 < s.len := by
  decide
theorem witness_LowPhase_whole :
    let s := inFrame 17 .txl 0 6 3
    Inv s ∧ HostKeepsResetLow s ∧ s.st = .txl ∧ s.cnt = s.lowTicks s.curBit ∧ 2 < s.lowTicks s.curBit :=
  ⟨witness_Inv_first_low, (by intro p hp; cases hp), rfl, by decide, by decide⟩
-- O30
theorem witness_FrameEnd : AtFrameEnd (inFrame 107 .txl 2 0 1) ∧ (inFrame 107 .txl 2 0 1).ports.rst = false :=
  ⟨⟨rfl, rfl, rfl, by decide⟩, rfl⟩
theorem witness_FrameEnd_other_ticks :
    step (inFrame 12 .txh 0 7 3) = .next (inFrame 12 .txh 0 7 3).countDown.noResponse := rfl

-- O31
theorem witness_BusyBlock :
    let s := inFrame 12 .txh 0 7 3
    s.st ≠ .idle ∧ step (s.presents .silent) = .next s.countDown.noResponse := ⟨by decide, rfl⟩
-- O32
theorem witness_BufferAndConfigConstant :
    let s := inFrame 12 .txh 0 7 3
    s.st ≠ .idle ∧ s.ports.rst = false ∧ step s = .next s.countDown.noResponse := ⟨by decide, rfl, rfl⟩
-- O33
theorem witness_CycleEdges_idle :
    AcceptsShow (single.presents (.once (encode .showFrame))) ∧
    step (single.presents (.once (encode .showFrame))) = .next single.startWait.noResponse :=
  ⟨⟨⟨rfl, rfl, rfl, rfl⟩, by decide⟩, rfl⟩
theorem witness_CycleEdges_wait : see (fun t => t.st) (step (inFrame 11 .wait 0 0 0)) = some .txh := by decide
theorem witness_CycleEdges_low : see (fun t => t.st) (step (inFrame 107 .txl 2 0 1)) = some .idle := by decide

-- O34, O35
/-- V20 with the SHOW presented at tick 10; its frame has 96 ticks, so `k` goes from 0 to 95. -/
theorem witness_Frame :
    let s := single.presents (.once (encode .showFrame))
    Inv s ∧ HostKeepsResetLow s ∧ AcceptsShow s ∧ 0 < s.frameTicks ∧ 95 < s.frameTicks ∧ s.lastWaitTick = 11 :=
  ⟨by constructor <;> decide, by intro p hp; cases hp <;> [rfl; contradiction], ⟨⟨rfl, rfl, rfl, rfl⟩, by decide⟩,
    by decide, by decide, by decide⟩
-- O35
/-- V23: a SHOW on the tick the previous frame's response appears waits `TLATCH` ticks. -/
theorem witness_Schedule_longest_wait :
    let s := (afterFrame 0).presents (.once (encode .showFrame))
    Inv s ∧ HostKeepsResetLow s ∧ AcceptsShow s ∧ s.lv = true ∧ s.lastWaitTick - s.now = 6 :=
  ⟨by constructor <;> decide, by intro p hp; cases hp <;> [rfl; contradiction], ⟨⟨rfl, rfl, rfl, rfl⟩, by decide⟩,
    rfl, by decide⟩

-- O36
theorem witness_LatchTimer_frame_end :
    let s : State := { inFrame 307 .txl 2 0 1 with lv := true, tend := 200 }
    s.ports.rst = false ∧ s.tend ≤ s.now ∧ see (fun t => t.tend) (step s) = some 308 := by decide
-- O37
theorem witness_LatchGap :
    let s : State := { afterFrame 6 with st := .wait }
    s.ports.rst = false ∧ s.st ≠ .txh ∧ s.st ≠ .txl ∧ s.lv = true ∧ s.tend ≤ s.now ∧
      see (fun t => (t.st, t.now)) (step s) = some (.txh, 115) := by decide
-- O38
theorem witness_TimeAdvances : see (fun t => t.now) (step single) = some 11 := by decide
theorem witness_TimeAdvances_reset :
    see (fun t => t.now) (step (single.presents { rst := true, cmdValid := false, cmd := 0, hold := false })) = some 0 := by
  decide
-- O39
theorem witness_Response :
    Inv (pair.presents (.once 0)) ∧ see response (step (pair.presents (.once 0))) = some (true, 0, 0) :=
  ⟨by constructor <;> decide, by decide⟩
-- O40
theorem witness_ResponseCode : see response (sends pair 0x10002000000000000) = some (true, 2, 0) := by decide
-- O41
theorem witness_StepRuns : Presented single (encode .showFrame) ∧ decode (encode .showFrame) = .ok .showFrame :=
  ⟨presented rfl, by decide⟩
-- O42
theorem witness_IdleTick : single.ports.rst = false ∧ single.st = .idle ∧ single.ports.cmdValid = false := by decide
-- O43
theorem witness_CommandWordIgnored : ∃ rst valid : Bool, valid = false ∨ rst = true := ⟨false, false, .inl rfl⟩
-- O46
theorem witness_ResetPin :
    (single.presents { rst := true, cmdValid := true, cmd := 0, hold := false }).ports.rst = true := by decide
theorem witness_ResetPin_low : single.ports.rst = false ∧ step single = .next single.noResponse := ⟨rfl, rfl⟩
-- O49, O50
theorem witness_Invariant : Inv (inFrame 107 .txl 2 0 1) ∧ see (fun t => t.st) (step (inFrame 107 .txl 2 0 1)) = some .idle :=
  ⟨witness_Inv_last_low, by decide⟩
-- O51
theorem witness_CanonicalMemory :
    pairW.raw.wf = true ∧ see (fun t => t.raw) (sends pairW 0x20001000000000000) =
      some [(0, 0xFF), (1, 0xFF), (2, 0xFF), (3, 0xFF)] := by decide
-- O52
theorem witness_ByteAccess :
    memRead pair 5 = .ok 0 ∧ memRead pair 6 = .error (.addressOutOfRange 6) ∧ pair.len ≤ 6 ∧ pair.raw.wf = true ∧
    5 < pair.len ∧ memWriteAll pair [(5, 1)] = .ok (pair.withRaw [(5, 1)]) ∧
    memWriteAll pair [(6, 1)] = .error (.addressOutOfRange 6) := ⟨rfl, rfl, by decide, by decide, by decide, rfl, rfl⟩
-- O53
theorem witness_BufferCommands : (pair.presents (.once 0)).ports.rst = false ∧
    step (pair.presents (.once 0)) = .next (pair.respond .ok 0) := ⟨rfl, rfl⟩

end Sys2Proof.Tests
end

