-- ==== Sys2Proof/Proofs/OutputPorts.lean ====
section
/-! The output ports as functions of the state (10_state.md R22), and the outputs and values of the reset state (R25). -/

namespace Sys2Proof.Machine

/-! ### When each output port is high -/

@[simp] theorem dout_iff (s : State) : dout s = true ↔ s.st = .txh := by
  simp only [dout, decide_eq_true_eq]

@[simp] theorem txActive_iff (s : State) : txActive s = true ↔ s.st = .txh ∨ s.st = .txl := by
  simp only [txActive, Bool.or_eq_true, decide_eq_true_eq]

@[simp] theorem cmdReady_iff (s : State) : cmdReady s = true ↔ s.st = .idle := by
  simp only [cmdReady, decide_eq_true_eq]

/-- `CanShow()` by its formula (43_latch_timer.md R181). -/
theorem canShow_iff (s : State) :
    canShow s = true ↔ s.lv = false ∨ s.now - s.tend ≥ (s.par.timing s.speed).tlatch := by
  change canShow s = true ↔ s.lv = false ∨ s.now - s.tend ≥ s.timing.tlatch
  simp only [canShow, Bool.or_eq_true, Bool.not_eq_true', decide_eq_true_eq]

/-! ### Outputs that follow from one register -/

theorem dout_eq_false_of_ne_txh {s : State} (h : s.st ≠ .txh) : dout s = false :=
  Bool.eq_false_iff.2 (mt (dout_iff s).1 h)

theorem txActive_eq_false_of_idle {s : State} (h : s.st = .idle) : txActive s = false := by
  simp [Bool.eq_false_iff, h]

theorem canShow_of_lv_eq_false {s : State} (h : s.lv = false) : canShow s = true :=
  (canShow_iff s).2 (.inl h)

/-- With no pixels the buffer is empty, whatever the memory lists. -/
theorem State.rawBytes_eq_nil_of_n_eq_zero {s : State} (h : s.n = 0) : s.rawBytes = [] := by
  have hlen : s.len = 0 := by simp [State.len, h]
  simp [State.rawBytes, hlen]

/-- Settles O44: each port is given by its own lemma, and the response ports are the response registers. -/
theorem outputPortsAreFunctionsOfState : Obligations.OutputPortsAreFunctionsOfState := fun s =>
  ⟨dout_iff s, txActive_iff s, cmdReady_iff s, canShow_iff s, rfl, rfl, rfl⟩

/-- Settles O45: the registers are read off the reset state; the buffer is empty as `N = 0`, and the outputs follow from
`ST = IDLE` and `LV = 0`, as R25 says. -/
theorem resetStateHoldsTheStatedValues : Obligations.ResetStateHoldsTheStatedValues := by
  have hidle : State.reset.st = .idle := rfl
  have hnotHigh : State.reset.st ≠ .txh := by simp [hidle]
  exact ⟨rfl, rfl, rfl, State.rawBytes_eq_nil_of_n_eq_zero rfl, hidle, rfl, rfl, rfl, dout_eq_false_of_ne_txh hnotHigh,
    txActive_eq_false_of_idle hidle, (cmdReady_iff _).2 hidle, canShow_of_lv_eq_false rfl⟩

end Sys2Proof.Machine
end

