-- ==== Sys2Proof/Proofs/Encoding.lean ====
section
/-! Which words the decoder rejects and how the block answers one (30_encoding.md R66), and the valid order bytes (R65). -/

namespace Sys2Proof.Machine

/-! ### What a response leaves unchanged (10_state.md R20, R21) -/

theorem answers_respond (s : State) (code : RspCode) (data : BitVec 32) : Answers (s.respond code data) code data :=
  ⟨rfl, rfl, rfl⟩

theorem keepsRegisters_respond (s : State) (code : RspCode) (data : BitVec 32) :
    KeepsRegisters s (s.respond code data) where
  config := ⟨rfl, rfl, rfl⟩
  st := rfl
  position := ⟨rfl, rfl, rfl⟩
  latch := ⟨rfl, rfl⟩
  surroundings := ⟨rfl, rfl⟩
  now := rfl

theorem sameBytes_respond (s : State) (code : RspCode) (data : BitVec 32) : SameBytes s (s.respond code data) :=
  .of_raw rfl

/-! ### What the decoder rejects -/

theorem requireZero_error {n : Nat} {field : CmdField} {v : BitVec n} {k : Except DecodeError Instr} :
    (∃ e, requireZero field v k = .error e) ↔ v ≠ 0 ∨ ∃ e, k = .error e := by
  unfold requireZero
  split
  · rename_i hzero
    exact ⟨.inr, fun h => h.resolve_left (not_not.2 hzero)⟩
  · rename_i hone
    exact ⟨fun _ => .inl hone, fun _ => ⟨_, rfl⟩⟩

theorem decodeZ_error {w : CmdWord} {i : Instr} :
    (∃ e, decodeZ w i = .error e) ↔ aField w ≠ 0 ∨ bField w ≠ 0 ∨ dField w ≠ 0 := by
  simp only [decodeZ, requireZero_error, reduceCtorEq, exists_false, or_false]

/-- `IllegalWord` cuts the word by bit positions of its own; they are the fields of R60. -/
theorem illegalWord_iff_fields (w : CmdWord) : IllegalWord w ↔
    9 ≤ (opField w).toNat ∨
    (((opField w).toNat = 0 ∨ (opField w).toNat = 5 ∨ (opField w).toNat = 6 ∨ (opField w).toNat = 7 ∨
      (opField w).toNat = 8) ∧ (aField w ≠ 0 ∨ bField w ≠ 0 ∨ dField w ≠ 0)) ∨
    ((opField w).toNat = 1 ∧ ((bField w).extractLsb' 9 7 ≠ 0 ∨ dField w ≠ 0)) ∨
    ((opField w).toNat = 2 ∧ bField w ≠ 0) ∨
    ((opField w).toNat = 3 ∧ (bField w ≠ 0 ∨ dField w ≠ 0)) := Iff.rfl

/-- An opcode that is none of the nine of R62 is a reserved one. -/
theorem nine_le_toNat_of_ne {op : BitVec 4} (h0 : op ≠ 0) (h1 : op ≠ 1) (h2 : op ≠ 2) (h3 : op ≠ 3) (h4 : op ≠ 4)
    (h5 : op ≠ 5) (h6 : op ≠ 6) (h7 : op ≠ 7) (h8 : op ≠ 8) : 9 ≤ op.toNat := by
  bv_omega

/-- One case per opcode of R62, by the format R61 gives it: `h_1` and `h_6` to `h_9` are the commands of format `Z`, `h_2`
to `h_4` are CFG, SETPIX and GETPIX, `h_5` is FILL, which has no zero field, and `h_10` is every reserved opcode. -/
theorem decode_error_iff_illegalWord (w : CmdWord) : (∃ e, decode w = .error e) ↔ IllegalWord w := by
  rw [illegalWord_iff_fields]
  unfold decode decodeAs
  split
  case h_1 hop | h_6 hop | h_7 hop | h_8 hop | h_9 hop => simp [hop, decodeZ_error]
  case h_2 hop | h_3 hop | h_4 hop => simp [hop, requireZero_error]
  case h_5 hop => simp [hop]
  case h_10 h0 h1 h2 h3 h4 h5 h6 h7 h8 =>
    exact ⟨fun _ => .inl (nine_le_toNat_of_ne h0 h1 h2 h3 h4 h5 h6 h7 h8), fun _ => ⟨_, rfl⟩⟩

/-- Settles O3: the decoder rejects by the cases of `IllegalWord`, and an accepted word it rejects is only responded to. -/
theorem illegalWordsAreAnsweredIllegalCmd : Obligations.IllegalWordsAreAnsweredIllegalCmd := by
  refine ⟨decode_error_iff_illegalWord, fun s w hacc hill => ?_⟩
  obtain ⟨e, hreject⟩ := (decode_error_iff_illegalWord w).2 hill
  exact ⟨_, step_illegal hacc hreject, answers_respond _ _ _, keepsRegisters_respond _ _ _, .of_raw (by simp)⟩

/-! ### The valid order bytes -/

/-- Pairwise distinct offsets below `n`, `n` of them, fill a record of `n` bytes, and nothing else does. -/
theorem perm_range_iff {l : List Nat} {n : Nat} :
    l.Perm (List.range n) ↔ l.length = n ∧ l.Nodup ∧ ∀ x ∈ l, x < n := by
  constructor
  · intro h
    exact ⟨by simpa using h.length_eq, h.nodup_iff.2 List.nodup_range, fun x hx => List.mem_range.1 (h.mem_iff.1 hx)⟩
  · rintro ⟨hlen, hnodup, hlt⟩
    have hsub : l ⊆ List.range n := fun x hx => List.mem_range.2 (hlt x hx)
    exact (hnodup.subperm hsub).perm_of_length_le (by simp [hlen])

theorem perm_zero_one_two_iff {r g b : Nat} :
    [r, g, b].Perm [0, 1, 2] ↔ r < 3 ∧ g < 3 ∧ b < 3 ∧ r ≠ g ∧ r ≠ b ∧ g ≠ b := by
  rw [show [0, 1, 2] = List.range 3 from rfl, perm_range_iff]
  simp only [List.length_cons, List.length_nil, List.nodup_cons, List.mem_cons, List.not_mem_nil, List.nodup_nil,
    forall_eq_or_imp, forall_eq, not_false_eq_true, or_false, and_true, true_and]
  omega

theorem perm_zero_one_two_three_iff {r g b w : Nat} :
    [r, g, b, w].Perm [0, 1, 2, 3] ↔ (r < 4 ∧ g < 4 ∧ b < 4 ∧ w < 4) ∧
      r ≠ g ∧ r ≠ b ∧ r ≠ w ∧ g ≠ b ∧ g ≠ w ∧ b ≠ w := by
  rw [show [0, 1, 2, 3] = List.range 4 from rfl, perm_range_iff]
  simp only [List.length_cons, List.length_nil, List.nodup_cons, List.mem_cons, List.not_mem_nil, List.nodup_nil,
    forall_eq_or_imp, forall_eq, not_false_eq_true, or_false, and_true, true_and]
  omega

theorem validOrder_iff_perm (o : BitVec 8) : validOrder o = true ↔
    (woffOf o = roffOf o ∧ [roffOf o, goffOf o, boffOf o].Perm [0, 1, 2]) ∨
    (woffOf o ≠ roffOf o ∧ [roffOf o, goffOf o, boffOf o, woffOf o].Perm [0, 1, 2, 3]) := by
  rw [perm_zero_one_two_iff, perm_zero_one_two_three_iff]
  by_cases hwr : woffOf o = roffOf o
  · simp only [validOrder, if_pos hwr, decide_eq_true_eq]
    omega
  · have hw : woffOf o < 4 := (o.extractLsb' 6 2).isLt
    have hr : roffOf o < 4 := (o.extractLsb' 4 2).isLt
    have hg : goffOf o < 4 := (o.extractLsb' 2 2).isLt
    have hb : boffOf o < 4 := (o.extractLsb' 0 2).isLt
    simp only [validOrder, if_neg hwr, decide_eq_true_eq]
    omega

/-- R65 counts the table "by enumeration of the condition", and so does this: 256 bytes. -/
theorem validOrder_iff_mem_table :
    ∀ o : BitVec 8, validOrder o = true ↔ o ∈ (orderCodes3 ++ orderCodes4).map Prod.fst := by
  decide

theorem offsets_of_orderCodes : ∀ row ∈ orderCodes3 ++ orderCodes4,
    woffOf row.1 = row.2.1 ∧ roffOf row.1 = row.2.2.1 ∧ goffOf row.1 = row.2.2.2.1 ∧ boffOf row.1 = row.2.2.2.2 := by
  decide

/-- A CFG with an invalid order is only responded to (40_config_query.md R91). -/
theorem exec_cfg_of_invalid {order : BitVec 8} (h : validOrder order = false) (s : State) (count : PixelCount)
    (speed : Speed) : exec (.cfg count order speed) s = .next (s.respond .badOrder 0) := by
  simp [exec, execCfg, h]

/-- Settles O6: the condition as pairwise distinct offsets, the table row by row, and the one response of a refused CFG. -/
theorem validOrderCodesAreTheTable : Obligations.ValidOrderCodesAreTheTable :=
  ⟨validOrder_iff_perm, validOrder_iff_mem_table, offsets_of_orderCodes, by decide, by decide,
    fun s count _ speed h => ⟨_, exec_cfg_of_invalid h s count speed, answers_respond _ _ _, keepsRegisters_respond _ _ _,
      sameBytes_respond _ _ _⟩⟩

end Sys2Proof.Machine
end

