-- ==== Sys2Proof/Proofs/ConfigQuery.lean ====
section
/-! CFG and NOP (40_config_query.md R91, R90): what a CFG leaves behind, that no other command configures, and that a busy
block does not see a NOP. -/

namespace Sys2Proof.Machine

/-! ### The word of a CFG -/

/-- A CFG word carries its operands in the fields R64 gives them, and no bit of 1 where the format says zero. -/
theorem decode_encode_cfg (count : PixelCount) (order : BitVec 8) (speed : Speed) :
    decode (encode (.cfg count order speed)) = .ok (.cfg count order speed) := by
  simp [decode, decodeAs, encode, requireZero_ok]

/-! ### What a CFG leaves behind -/

/-- A CFG with a valid order loads the configuration and answers `OK`. -/
theorem exec_cfg_of_valid {order : BitVec 8} (h : validOrder order = true) (s : State) (count : PixelCount)
    (speed : Speed) : exec (.cfg count order speed) s = .next ((s.configure count order speed).respond .ok 0) := by
  simp [exec, execCfg, h]

/-- A memory that lists nothing is a buffer of zero bytes. -/
theorem State.rawBytes_eq_replicate_of_raw_eq_nil {s : State} (h : s.raw = []) :
    s.rawBytes = List.replicate s.len 0 := by
  have hzero (addr : Nat) : s.byteAt addr = 0 := by rw [State.byteAt, h, Memory.get]
  exact List.eq_replicate_iff.2 ⟨by simp [State.rawBytes], by simp [State.rawBytes, hzero]⟩

/-- A buffer that fits has the pixels asked for, all of them zero (R91). -/
theorem State.configure_of_fits {s : State} {count : PixelCount} {order : BitVec 8}
    (hfits : count.toNat * channelsOf order ≤ s.par.maxBytes) (speed : Speed) :
    (s.configure count order speed).n = count ∧
    (s.configure count order speed).rawBytes = List.replicate (count.toNat * channelsOf order) 0 := by
  have hn : (s.configure count order speed).n = count := if_pos hfits
  have hlen : (s.configure count order speed).len = count.toNat * channelsOf order := by
    rw [State.len, hn, State.channels, State.configure_order]
  exact ⟨hn, hlen ▸ State.rawBytes_eq_replicate_of_raw_eq_nil rfl⟩

/-- A buffer over capacity has no pixels and no bytes (R92). -/
theorem State.configure_of_over_capacity {s : State} {count : PixelCount} {order : BitVec 8}
    (hover : ¬ count.toNat * channelsOf order ≤ s.par.maxBytes) (speed : Speed) :
    (s.configure count order speed).n = 0 ∧ (s.configure count order speed).rawBytes = [] := by
  have hn : (s.configure count order speed).n = 0 := if_neg hover
  exact ⟨hn, State.rawBytes_eq_nil_of_n_eq_zero hn⟩

/-! ### No other command configures -/

theorem exec_sameConfig {s t : State} {i : Instr} (hne : ∀ count order speed, i ≠ .cfg count order speed)
    (h : exec i s = .next t) : SameConfig s t := by
  cases exec_effect h with
  | answer ws code data inRange eq => subst eq; exact ⟨rfl, rfl, rfl⟩
  | configure count order speed cmd valid eq => exact absurd cmd (hne count order speed)
  | startsShow cmd pixels eq => subst eq; exact ⟨rfl, rfl, rfl⟩

/-- Settles O9: the word decodes by its fields, a CFG goes one of two ways by the validity of its order, and `exec_effect`
leaves only CFG a way to configure. -/
theorem cfgCreatesZeroFilledBuffer : Obligations.CfgCreatesZeroFilledBuffer := by
  refine ⟨decode_encode_cfg, fun s count order speed => ?_, fun s t i => exec_sameConfig⟩
  by_cases hvalid : validOrder order = true
  · refine ⟨_, exec_cfg_of_valid hvalid s count speed, ?_⟩
    rw [if_pos hvalid]
    refine ⟨answers_respond _ _ _, rfl, rfl, ?_, rfl, ⟨rfl, rfl, rfl⟩, ⟨rfl, rfl⟩, ⟨rfl, rfl⟩, rfl⟩
    split
    · exact State.configure_of_fits ‹_› speed
    · exact State.configure_of_over_capacity ‹_› speed
  · refine ⟨_, exec_cfg_of_invalid (Bool.eq_false_iff.2 hvalid) s count speed, ?_⟩
    rw [if_neg hvalid]
    exact ⟨answers_respond _ _ _, keepsRegisters_respond _ _ _, sameBytes_respond _ _ _⟩

/-! ### A busy block does not read the command port -/

/-- A busy step depends on the ports only through `rst` and what the host presents next (10_state.md R29). -/
theorem step_congr_of_busy {s t : State} (hbusy : s.st ≠ .idle) (hrst : s.ports.rst = t.ports.rst)
    (hnext : s.nextHostTick = t.nextHostTick) : step s = step t := by
  have hst : s.st = t.st := by simpa using congrArg State.st hnext
  simp only [step, tick, hrst, hnext]
  split
  · rfl
  · rw [← hst]
    cases h : s.st with
    | idle => exact absurd h hbusy
    | wait | txh | txl => rfl

/-- A word the host does not hold is gone after one tick. -/
theorem State.nextHostTick_presents {p : HostTick} (h : p.hold = false) (s : State) :
    (s.presents p).nextHostTick = s := by
  simp [State.nextHostTick, State.keepsCommand, State.ports, State.presents, h]

/-- Settles O8: NOP is its response, and when busy the block and the host go on alike with a NOP presented or nothing. -/
theorem nopOnlyAnswersOk : Obligations.NopOnlyAnswersOk := by
  refine ⟨by decide, fun s => ?_, fun s hbusy => ?_⟩
  · exact ⟨_, rfl, answers_respond s .ok 0, keepsRegisters_respond s .ok 0, sameBytes_respond s .ok 0⟩
  · have honce := State.nextHostTick_presents (p := .once 0) rfl s
    have hsilent := State.nextHostTick_presents (p := .silent) rfl s
    exact step_congr_of_busy hbusy rfl (honce.trans hsilent.symm)

end Sys2Proof.Machine
end

