-- ==== Sys2Proof/Proofs/PixelAccess.lean ====
section
/-! The colour-channel extractor (41_pixel_access.md R110) and the commands SETPIX, GETPIX, FILL (R113 to R115): what each stores in
the records it names, and that it stores nothing else. -/

namespace Sys2Proof.Machine

/-! ### The extractor by arithmetic -/

theorem extract_w_toNat (c : Color) : (extract c).w.toNat = c.toNat / 2 ^ 24 := by
  simp only [extract, BitVec.extractLsb'_toNat, Nat.shiftRight_eq_div_pow]
  omega

theorem extract_r_toNat (c : Color) : (extract c).r.toNat = c.toNat / 2 ^ 16 % 2 ^ 8 := by
  simp only [extract, BitVec.extractLsb'_toNat, Nat.shiftRight_eq_div_pow]

theorem extract_g_toNat (c : Color) : (extract c).g.toNat = c.toNat / 2 ^ 8 % 2 ^ 8 := by
  simp only [extract, BitVec.extractLsb'_toNat, Nat.shiftRight_eq_div_pow]

theorem extract_b_toNat (c : Color) : (extract c).b.toNat = c.toNat % 2 ^ 8 := by
  simp only [extract, BitVec.extractLsb'_toNat, Nat.shiftRight_zero]

/-- A byte appended below a word shifts the word up by 8 bits. -/
theorem toNat_append_byte {n : Nat} (x : BitVec n) (y : Byte) : (x ++ y).toNat = x.toNat * 2 ^ 8 + y.toNat := by
  rw [BitVec.toNat_append, ← Nat.shiftLeft_add_eq_or_of_lt y.isLt, Nat.shiftLeft_eq]

theorem pack_toNat (ch : Channels) :
    (pack ch).toNat = ((ch.w.toNat * 2 ^ 8 + ch.r.toNat) * 2 ^ 8 + ch.g.toNat) * 2 ^ 8 + ch.b.toNat := by
  rw [← toNat_append_byte, ← toNat_append_byte, ← toNat_append_byte]
  rfl

theorem pack_extract (c : Color) : pack (extract c) = c := by
  apply BitVec.eq_of_toNat_eq
  rw [pack_toNat, extract_w_toNat, extract_r_toNat, extract_g_toNat, extract_b_toNat]
  omega

theorem extract_pack (ch : Channels) : extract (pack ch) = ch := by
  have hp := pack_toNat ch
  have hw : (extract (pack ch)).w = ch.w := BitVec.eq_of_toNat_eq (by rw [extract_w_toNat, hp]; omega)
  have hr : (extract (pack ch)).r = ch.r := BitVec.eq_of_toNat_eq (by rw [extract_r_toNat, hp]; omega)
  have hg : (extract (pack ch)).g = ch.g := BitVec.eq_of_toNat_eq (by rw [extract_g_toNat, hp]; omega)
  have hb : (extract (pack ch)).b = ch.b := BitVec.eq_of_toNat_eq (by rw [extract_b_toNat, hp]; omega)
  calc extract (pack ch)
      = ⟨(extract (pack ch)).w, (extract (pack ch)).r, (extract (pack ch)).g, (extract (pack ch)).b⟩ := rfl
    _ = ch := by rw [hw, hr, hg, hb]

/-- Settles O7: the channels are the digits of the colour in base 256, and `pack` puts the digits together again. -/
theorem extractIsInverseOfPack : Obligations.ExtractIsInverseOfPack :=
  ⟨fun c => ⟨extract_w_toNat c, extract_r_toNat c, extract_g_toNat c, extract_b_toNat c⟩, pack_extract, extract_pack⟩

/-! ### The words of SETPIX, GETPIX and FILL -/

theorem decode_encode_setpix (index : PixelCount) (color : Color) :
    decode (encode (.setpix index color)) = .ok (.setpix index color) := by
  simp [decode, decodeAs, encode, requireZero_ok]

theorem decode_encode_getpix (index : PixelCount) : decode (encode (.getpix index)) = .ok (.getpix index) := by
  simp [decode, decodeAs, encode, requireZero_ok]

theorem decode_encode_fill (color : Color) (first count : PixelCount) :
    decode (encode (.fill color first count)) = .ok (.fill color first count) := by
  simp [decode, decodeAs, encode]

/-! ### The record of a pixel -/

theorem State.recordBase_succ (s : State) (i : Nat) : s.recordBase (i + 1) = s.recordBase i + s.channels :=
  Nat.succ_mul i s.channels

theorem State.recordBase_mono (s : State) {i j : Nat} (h : i ≤ j) : s.recordBase i ≤ s.recordBase j :=
  Nat.mul_le_mul_right s.channels h

/-- A record with the byte of its channel at every offset holds the colour. -/
theorem HoldsColor.of_channelByte {t : State} (hv : validOrder t.order = true) {i : Nat} {color : Color}
    (h : ∀ off < t.channels, t.byteAt (t.recordBase i + off) = channelByte t.order color off) : HoldsColor t i color := by
  obtain ⟨hr, hg, hb, hw, hrg, hrb, hgb, hwhite⟩ := validOrder_offsets hv
  refine ⟨(h _ hr).trans ?_, (h _ hg).trans ?_, (h _ hb).trans ?_, fun h4 => (h _ hw).trans ?_⟩
  · simp [channelByte, extract]
  · simp [channelByte, extract, hrg.symm]
  · simp [channelByte, extract, hrb.symm, hgb.symm]
  · obtain ⟨hwr, hwg, hwb⟩ := hwhite h4
    simp [channelByte, extract, hwr, hwg, hwb]

/-! ### What a fill leaves in the buffer -/

/-- A `Place` of one pixel is the fill of that pixel alone. -/
theorem placeWrites_eq_fillWrites (s : State) (i : Nat) (color : Color) :
    placeWrites s i color = fillWrites s i (i + 1) color := by
  simp [fillWrites]

/-- Every byte of a filled record is that of the channel mapped there: no two records share an address, so all writes to it agree. -/
theorem byteAt_fillWrites_of_mem {s : State} (hv : validOrder s.order = true) (hwf : s.raw.wf = true)
    {first last i off : Nat} (hfirst : first ≤ i) (hlast : i < last) (hoff : off < s.channels) (color : Color) :
    (s.withRaw (fillWrites s first last color)).byteAt (s.recordBase i + off) = channelByte s.order color off := by
  refine Memory.get_putAll_same hwf (fun c hc haddr => ?_)
    ⟨_, mem_fillWrites.2 ⟨i, hfirst, hlast, (mem_placeWrites hv).2 ⟨off, hoff, rfl⟩⟩, rfl⟩
  obtain ⟨j, -, -, hc⟩ := mem_fillWrites.1 hc
  obtain ⟨off', hoff', rfl⟩ := (mem_placeWrites hv).1 hc
  obtain ⟨-, rfl⟩ := State.record_of_addr hoff' hoff haddr
  rfl

theorem byteAt_fillWrites_of_outside {s : State} (hv : validOrder s.order = true) {first last addr : Nat}
    (hout : addr < s.recordBase first ∨ s.recordBase last ≤ addr) (color : Color) :
    (s.withRaw (fillWrites s first last color)).byteAt addr = s.byteAt addr := by
  refine Memory.get_putAll_other s.raw fun c hc => ?_
  obtain ⟨i, hfirst, hlast, hc⟩ := mem_fillWrites.1 hc
  obtain ⟨hlow, hhigh⟩ := placeWrites_in_record hv hc
  have hbelow := s.recordBase_mono hfirst
  have habove := s.recordBase_mono (Nat.succ_le_of_lt hlast)
  rw [Nat.succ_eq_add_one, State.recordBase_succ] at habove
  omega

theorem holdsColor_fillWrites {s : State} (hv : validOrder s.order = true) (hwf : s.raw.wf = true)
    {first last i : Nat} (hfirst : first ≤ i) (hlast : i < last) (color : Color) (code : RspCode) (data : BitVec 32) :
    HoldsColor ((s.withRaw (fillWrites s first last color)).respond code data) i color := by
  apply HoldsColor.of_channelByte
  · exact hv
  · exact fun off hoff => byteAt_fillWrites_of_mem hv hwf hfirst hlast hoff color

/-- Stored bytes and a response are all that a command of this family leaves behind. -/
theorem keepsRegisters_withRaw_respond (s : State) (ws : List Host.Cell) (code : RspCode) (data : BitVec 32) :
    KeepsRegisters s ((s.withRaw ws).respond code data) where
  config := ⟨rfl, rfl, rfl⟩
  st := rfl
  position := ⟨rfl, rfl, rfl⟩
  latch := ⟨rfl, rfl⟩
  surroundings := ⟨rfl, rfl⟩
  now := rfl

/-! ### SETPIX (R113) -/

theorem exec_setpix_of_lt {s : State} (hv : validOrder s.order = true) {index : PixelCount}
    (h : index.toNat < s.n.toNat) (color : Color) :
    exec (.setpix index color) s = .next ((s.withRaw (placeWrites s index.toNat color)).respond .ok 0) := by
  rw [exec, execSetpix, if_pos h, withWrites_of_lt fun _ => placeWrites_lt hv h]

theorem exec_setpix_of_ge {s : State} {index : PixelCount} (h : ¬ index.toNat < s.n.toNat) (color : Color) :
    exec (.setpix index color) s = .next (s.respond .ok 0) := by
  rw [exec, execSetpix, if_neg h]

/-- Settles O13: in range a SETPIX is the fill of its one record; out of range it is only its response. -/
theorem setpixWritesOneRecord : Obligations.SetpixWritesOneRecord := by
  refine ⟨decode_encode_setpix, fun s index color hv hwf => ?_⟩
  by_cases h : index.toNat < s.n.toNat
  · refine ⟨_, exec_setpix_of_lt hv h color, answers_respond _ _ _, keepsRegisters_withRaw_respond _ _ _ _, ?_⟩
    rw [if_pos h, placeWrites_eq_fillWrites, ← State.recordBase_succ]
    exact ⟨holdsColor_fillWrites hv hwf (Nat.le_refl _) (Nat.lt_succ_self _) color _ _,
      fun addr hout => byteAt_fillWrites_of_outside hv hout color⟩
  · refine ⟨_, exec_setpix_of_ge h color, answers_respond _ _ _, keepsRegisters_respond _ _ _, ?_⟩
    rw [if_neg h]
    exact sameBytes_respond _ _ _

/-! ### GETPIX (R114) -/

theorem exec_getpix {s : State} (hv : validOrder s.order = true) (index : PixelCount) :
    exec (.getpix index) s =
      .next (s.respond .ok (if index.toNat < s.n.toNat then s.pixelAt index.toNat else 0)) := by
  rw [exec, execGetpix]
  split
  · rw [withPixel_of_lt hv ‹_›]
  · rfl

/-- Settles O14: the answer is `pixelAt`, the packed colour of the record, and a read is nothing but a response. -/
theorem getpixReadsOneRecord : Obligations.GetpixReadsOneRecord :=
  ⟨decode_encode_getpix, fun _ index hv =>
    ⟨_, exec_getpix hv index, keepsRegisters_respond _ _ _, sameBytes_respond _ _ _, answers_respond _ _ _⟩⟩

/-! ### FILL (R115) -/

theorem exec_fill_of_lt {s : State} (hv : validOrder s.order = true) {first : PixelCount}
    (h : first.toNat < s.n.toNat) (color : Color) (count : PixelCount) :
    exec (.fill color first count) s =
      .next ((s.withRaw (fillWrites s first.toNat (fillEnd s first count) color)).respond .ok 0) := by
  rw [exec, execFill, if_pos h, withWrites_of_lt fun _ => fillWrites_lt hv]

theorem exec_fill_of_ge {s : State} {first : PixelCount} (h : ¬ first.toNat < s.n.toNat) (color : Color)
    (count : PixelCount) : exec (.fill color first count) s = .next (s.respond .ok 0) := by
  rw [exec, execFill, if_neg h]

/-- Settles O15: `fillEnd` is the clipped end of R115, so in range a FILL leaves what `fillWrites` up to it leaves. -/
theorem fillWritesClippedRange : Obligations.FillWritesClippedRange := by
  refine ⟨decode_encode_fill, fun s color first count hv hwf => ?_⟩
  by_cases h : first.toNat < s.n.toNat
  · refine ⟨_, exec_fill_of_lt hv h color count, answers_respond _ _ _, keepsRegisters_withRaw_respond _ _ _ _, ?_⟩
    simp only [if_pos h]
    exact ⟨fun i hfirst hlast => holdsColor_fillWrites hv hwf hfirst hlast color _ _,
      fun addr hout => byteAt_fillWrites_of_outside hv hout color⟩
  · refine ⟨_, exec_fill_of_ge h color count, answers_respond _ _ _, keepsRegisters_respond _ _ _, ?_⟩
    simp only [if_neg h]
    exact sameBytes_respond _ _ _

end Sys2Proof.Machine
end

