-- ==== Sys2Proof/Proofs/FrameTransmit.lean ====
section
/-! SHOW in the inert state (42_frame_transmit.md R142) and the sequencer tick by tick (R143 to R147): its edges (R140), what every
busy tick keeps, and how long each part of a pulse lasts. -/

namespace Sys2Proof.Machine

/-! ### Facts about the buffer, the timing and the words of commands -/

/-- A buffer with a pixel has a byte (10_state.md R14). -/
theorem State.len_pos {s : State} (h : 1 ≤ s.n.toNat) : 0 < s.len :=
  Nat.mul_pos h (channelsOf_pos s.order)

/-- The latch interval of the class in force is at least one tick (00_scope.md R5(d)). -/
theorem State.tlatch_pos (s : State) : 1 ≤ s.timing.tlatch := by
  have hwf : s.timing.wf = true := by
    unfold State.timing Params.timing
    cases s.speed
    case standard => exact s.par.standard_wf
    case slow => exact s.par.slow_wf
  simp only [Timing.wf, Bool.and_eq_true, decide_eq_true_eq] at hwf
  exact hwf.2

/-- In the tick a time stamp names, no latch interval has passed. -/
theorem canShow_eq_false_at_tend {s : State} (hlv : s.lv = true) (hnow : s.now = s.tend) : canShow s = false := by
  have hlatch := s.tlatch_pos
  simp only [canShow, hlv, hnow, Nat.sub_self, Bool.not_true, Bool.false_or, decide_eq_false_iff_not]
  omega

/-- A legal word is the word of its command: opcode and zero fields are as its format says, and the other fields are the operands. -/
theorem encode_of_decode {w : CmdWord} {i : Instr} (h : decode w = .ok i) : encode i = w := by
  have hw := packWord_fields w
  unfold decode decodeAs at h
  split at h
  case h_1 hop | h_6 hop | h_7 hop | h_8 hop | h_9 hop =>
    obtain ⟨ha, hb, hd, rfl⟩ := decodeZ_ok.1 h
    rwa [hop, ha, hb, hd] at hw
  case h_2 hop =>
    simp only [requireZero_ok, Except.ok.injEq] at h
    obtain ⟨hb, hd, rfl⟩ := h
    rw [hop, hd] at hw
    rwa [encode, cfgTypeField_eq hb]
  case h_3 hop =>
    simp only [requireZero_ok, Except.ok.injEq] at h
    obtain ⟨hb, rfl⟩ := h
    rwa [hop, hb] at hw
  case h_4 hop =>
    simp only [requireZero_ok, Except.ok.injEq] at h
    obtain ⟨hb, hd, rfl⟩ := h
    rwa [hop, hb, hd] at hw
  case h_5 hop =>
    obtain rfl := Except.ok.inj h
    rwa [hop] at hw
  case h_10 => cases h

/-! ### SHOW in the inert state (R142) -/

theorem exec_showFrame_of_inert {s : State} (h : s.n = 0) : exec .showFrame s = .next (s.respond .ok 0) := by
  rw [exec, execShow, if_pos h]

/-- Settles O18: with `N = 0` a SHOW is only its response, and a CFG of no pixels leaves `N = 0` whether or not it fits. -/
theorem showInInertStateIsNoOp : Obligations.ShowInInertStateIsNoOp := by
  refine ⟨fun s hn => ?_, fun s order speed hvalid => ?_⟩
  · exact ⟨_, exec_showFrame_of_inert hn, answers_respond _ _ _, keepsRegisters_respond _ _ _, sameBytes_respond _ _ _⟩
  · have hn : ((s.configure 0 order speed).respond .ok 0).n = 0 := by simp
    exact ⟨_, _, exec_cfg_of_valid hvalid s 0 speed, exec_showFrame_of_inert hn, answers_respond _ _ _,
      keepsRegisters_respond _ _ _, sameBytes_respond _ _ _⟩

/-! ### The edges of the sequencer (R140) -/

/-- An accepted command leaves the sequencer where it is, or is an effective SHOW. -/
theorem exec_st {s t : State} {i : Instr} (h : exec i s = .next t) :
    t.st = s.st ∨ (t.st = .wait ∧ i = .showFrame ∧ s.n ≠ 0) := by
  cases exec_effect h with
  | answer ws code data inRange eq => subst eq; exact .inl rfl
  | configure count order speed cmd valid eq => subst eq; exact .inl rfl
  | startsShow cmd pixels eq => subst eq; exact .inr ⟨rfl, cmd, pixels⟩

/-- Settles O33: one case per effect of a tick; out of IDLE only a SHOW with pixels leads on, and its word is SHOW's own. -/
theorem sequencerTakesOnlyTheCycleEdges : Obligations.SequencerTakesOnlyTheCycleEdges := by
  intro s t hrst h
  cases step_effect h with
  | reset rst eq => simp [hrst] at rst
  | nothing rst st valid eq => subst eq; simp [st]
  | illegal rst st valid e word eq => subst eq; simp [st]
  | command rst st valid i word run =>
    have hedge : t.st = .idle ∨ (t.st = .wait ∧ AcceptsShow s) := by
      rcases exec_st run with hkeep | ⟨hwait, rfl, hpixels⟩
      · exact .inl (by simpa [st] using hkeep)
      · exact .inr ⟨hwait, ⟨rst, st, valid, (encode_of_decode word).symm⟩, by simpa using hpixels⟩
    simpa [st] using hedge
  | waiting rst st early eq => subst eq; simp [st, early]
  | frameStart rst st ready pixels eq => subst eq; simp [st, ready]
  | highGoesOn rst st cnt eq => subst eq; simp [st]
  | highEnds rst st cnt addr eq => subst eq; simp [st]
  | lowGoesOn rst st cnt eq => subst eq; simp [st]
  | nextBit rst st cnt bit addr eq => subst eq; simp [st]
  | nextByte rst st cnt bit addr eq => subst eq; simp [st]
  | frameEnd rst st cnt bit addr eq => subst eq; simp [st, cnt, bit, addr]

/-! ### What every busy tick keeps -/

/-- What a tick of a SHOW in progress leaves as it was; the time stamp and the silence of the response port end with the frame. -/
structure KeepsWhileBusy (s t : State) : Prop where
  config : SameConfig s t
  raw : t.raw = s.raw
  par : t.par = s.par
  host : t.host = s.nextHostTick.host
  now : t.now = s.now + 1
  latch : t.st ≠ .idle → SameLatch s t
  quiet : t.st ≠ .idle → t.rspv = false

theorem KeepsWhileBusy.sameBytes {s t : State} (h : KeepsWhileBusy s t) : SameBytes s t := .of_raw h.raw

theorem step_keepsWhileBusy {s t : State} (hbusy : s.st ≠ .idle) (hrst : s.ports.rst = false)
    (h : step s = .next t) : KeepsWhileBusy s t := by
  cases step_effect h with
  | reset rst => simp [hrst] at rst
  | nothing _ st | illegal _ st | command _ st => exact absurd st hbusy
  | waiting _ _ _ eq | frameStart _ _ _ _ eq | highGoesOn _ _ _ eq | highEnds _ _ _ _ eq | lowGoesOn _ _ _ eq
  | nextBit _ _ _ _ _ eq | nextByte _ _ _ _ _ eq =>
    subst eq
    exact ⟨⟨by simp, by simp, by simp⟩, by simp, by simp, by simp, by simp, fun _ => ⟨by simp, by simp⟩, fun _ => by simp⟩
  | frameEnd _ _ _ _ _ eq =>
    subst eq
    exact ⟨⟨by simp, by simp, by simp⟩, by simp, by simp, by simp, by simp, fun h => absurd rfl h, fun h => absurd rfl h⟩

theorem State.nextHostTick_highTicks (s : State) (v : Bool) : s.nextHostTick.highTicks v = s.highTicks v :=
  State.highTicks_congr (by simp) (by simp) v

theorem State.nextHostTick_lowTicks (s : State) (v : Bool) : s.nextHostTick.lowTicks v = s.lowTicks v :=
  State.lowTicks_congr (by simp) (by simp) v

/-! ### WAIT (R143, R144) -/

/-- Settles O27: a WAIT tick is `frameStart` or `waiting` by `CanShow()`, and `N ≥ 1` gives the frame its first byte. -/
theorem waitTickStartsFrameWhenReady : Obligations.WaitTickStartsFrameWhenReady := by
  intro s hst hrst hn
  have hbusy : s.st ≠ .idle := by simp [hst]
  refine ⟨dout_eq_false_of_ne_txh (by simp [hst]), ?_⟩
  by_cases hshow : canShow s = true
  · have hstep := step_frameStart hrst hst hshow (State.len_pos hn)
    have hkeep := step_keepsWhileBusy hbusy hrst hstep
    refine ⟨_, hstep, rfl, hkeep.config, hkeep.latch (by simp), hkeep.sameBytes, hkeep.par, hkeep.now, ?_⟩
    rw [if_pos hshow]
    exact ⟨rfl, rfl, rfl, State.nextHostTick_highTicks s _⟩
  · have hstep := step_waiting hrst hst (Bool.eq_false_iff.2 hshow)
    have hkeep := step_keepsWhileBusy hbusy hrst hstep
    refine ⟨_, hstep, rfl, hkeep.config, hkeep.latch (by simp [hst]), hkeep.sameBytes, hkeep.par, hkeep.now, ?_⟩
    rw [if_neg hshow]
    simp [hst]

/-! ### Counting down a part of a pulse -/

/-- `k` ticks into a part of a pulse: `CNT` is `k` less, time is `k` later, and the rest of what the part reads is as it was. -/
structure CountedDown (s : State) (k : Nat) (t : State) : Prop where
  config : SameConfig s t
  latch : SameLatch s t
  raw : t.raw = s.raw
  par : t.par = s.par
  st : t.st = s.st
  bytePtr : t.bytePtr = s.bytePtr
  bitIdx : t.bitIdx = s.bitIdx
  cnt : t.cnt + k = s.cnt
  now : t.now = s.now + k
  resetLow : HostKeepsResetLow t

theorem CountedDown.refl {s : State} (h : HostKeepsResetLow s) : CountedDown s 0 s :=
  ⟨⟨rfl, rfl, rfl⟩, ⟨rfl, rfl⟩, rfl, rfl, rfl, rfl, rfl, rfl, rfl, h⟩

theorem CountedDown.txActive {s t : State} {k : Nat} (h : CountedDown s k t) : txActive t = txActive s := by
  simp only [Machine.txActive, h.st]

theorem CountedDown.len {s t : State} {k : Nat} (h : CountedDown s k t) : t.len = s.len :=
  State.len_congr h.config.n h.config.order

theorem CountedDown.curBit {s t : State} {k : Nat} (h : CountedDown s k t) : t.curBit = s.curBit := by
  simp only [State.curBit, h.bytePtr, h.bitIdx, State.byteAt_congr h.raw]

theorem CountedDown.lowTicks {s t : State} {k : Nat} (h : CountedDown s k t) (v : Bool) : t.lowTicks v = s.lowTicks v :=
  State.lowTicks_congr h.par h.config.speed v

/-- Both parts of a pulse count down alike (R145, R146). -/
theorem step_countDown {s : State} (hrst : s.ports.rst = false) (htx : txActive s = true) (hcnt : 1 < s.cnt) :
    step s = .next s.nextHostTick.countDown.noResponse := by
  rcases (txActive_iff s).1 htx with hst | hst
  · exact step_highGoesOn hrst hst (by omega)
  · exact step_lowGoesOn hrst hst hcnt

/-- One more tick of the same part. -/
theorem CountedDown.succ {s t : State} {k : Nat} (h : CountedDown s k t) (hcnt : 1 < t.cnt) :
    CountedDown s (k + 1) t.nextHostTick.countDown.noResponse where
  config := ⟨by simp [h.config.n], by simp [h.config.order], by simp [h.config.speed]⟩
  latch := ⟨by simp [h.latch.lv], by simp [h.latch.tend]⟩
  raw := by simp [h.raw]
  par := by simp [h.par]
  st := by simp [h.st]
  bytePtr := by simp [h.bytePtr]
  bitIdx := by simp [h.bitIdx]
  cnt := by have := h.cnt; simp only [State.noResponse_cnt, State.countDown_cnt, State.nextHostTick_cnt]; omega
  now := by simp [h.now, Nat.add_assoc]
  resetLow := h.resetLow.next rfl

/-- As long as `CNT` lasts, a part of a pulse only counts down. -/
theorem runTicks_countDown {s : State} (hlow : HostKeepsResetLow s) (htx : txActive s = true) {k : Nat}
    (hk : k < s.cnt) : ∃ t, runTicks k s = .next t ∧ CountedDown s k t := by
  induction k with
  | zero => exact ⟨s, rfl, .refl hlow⟩
  | succ k ih =>
    obtain ⟨t, hrun, hdown⟩ := ih (by omega)
    have hcnt : 1 < t.cnt := by have := hdown.cnt; omega
    have hstep := step_countDown hdown.resetLow.ports (hdown.txActive.trans htx) hcnt
    exact ⟨_, by rw [runTicks_add hrun, runTicks_succ hstep, runTicks], hdown.succ hcnt⟩

/-- A run of `CNT` ticks ends with the step out of the last tick of the part. -/
theorem runTicks_cnt {s : State} (hlow : HostKeepsResetLow s) (htx : txActive s = true) (hcnt : 1 ≤ s.cnt) :
    ∃ t, CountedDown s (s.cnt - 1) t ∧ t.cnt = 1 ∧ ∀ u, step t = .next u → runTicks s.cnt s = .next u := by
  obtain ⟨t, hrun, hdown⟩ := runTicks_countDown hlow htx (k := s.cnt - 1) (by omega)
  refine ⟨t, hdown, by have := hdown.cnt; omega, fun u hstep => ?_⟩
  calc runTicks s.cnt s
      = runTicks (s.cnt - 1 + 1) s := by rw [Nat.sub_add_cancel hcnt]
    _ = runTicks 1 t := runTicks_add hrun
    _ = .next u := runTicks_succ hstep

/-! ### The high part of a pulse (R145) -/

/-- Settles O28: a high tick is `highEnds` or `highGoesOn` by `CNT`, and `CNT` ticks run through the whole part. -/
theorem highPhaseLastsHighTicks : Obligations.HighPhaseLastsHighTicks := by
  refine ⟨fun s hst hrst haddr => ⟨(dout_iff s).2 hst, ?_⟩, fun s hinv hlow hst hcnt => ?_⟩
  · have hbusy : s.st ≠ .idle := by simp [hst]
    by_cases hone : s.cnt = 1
    · have hstep := step_highEnds hrst hst hone haddr
      have hkeep := step_keepsWhileBusy hbusy hrst hstep
      refine ⟨_, hstep, rfl, hkeep.config, hkeep.latch (by simp), hkeep.sameBytes, hkeep.par, by simp, by simp,
        hkeep.now, ?_⟩
      rw [if_pos hone]
      exact ⟨rfl, State.nextHostTick_lowTicks s _⟩
    · have hstep := step_highGoesOn hrst hst hone
      have hkeep := step_keepsWhileBusy hbusy hrst hstep
      refine ⟨_, hstep, rfl, hkeep.config, hkeep.latch (by simp [hst]), hkeep.sameBytes, hkeep.par, by simp, by simp,
        hkeep.now, ?_⟩
      rw [if_neg hone]
      simp [hst]
  · have htx : txActive s = true := (txActive_iff s).2 (.inl hst)
    rw [← hcnt]
    constructor
    · intro k hk
      obtain ⟨t, hrun, hdown⟩ := runTicks_countDown hlow htx hk
      have htst : t.st = .txh := hdown.st.trans hst
      exact ⟨t, hrun, htst, (dout_iff t).2 htst⟩
    · obtain ⟨t, hdown, hone, hlast⟩ := runTicks_cnt hlow htx (hinv.tx_cnt htx)
      have haddr : t.bytePtr < t.len := by rw [hdown.bytePtr, hdown.len]; exact hinv.tx_addr htx
      refine ⟨_, hlast _ (step_highEnds hdown.resetLow.ports (hdown.st.trans hst) hone haddr), rfl, ?_⟩
      calc t.nextHostTick.lowTicks t.curBit
          = t.lowTicks t.curBit := State.nextHostTick_lowTicks t _
        _ = s.lowTicks s.curBit := by rw [hdown.curBit, hdown.lowTicks]

/-! ### The frame end (R147) -/

/-- Settles O30: a frame end is the step `frameEnd`; `CanShow()` is false as no tick has passed since its stamp, and
`KeepsWhileBusy` gives the ticks that stay busy. -/
theorem frameEndStampsAndAnswers : Obligations.FrameEndStampsAndAnswers := by
  refine ⟨fun s hend hrst => ?_, fun s t hbusy hrst hbusy' h => (step_keepsWhileBusy hbusy hrst h).latch hbusy'⟩
  obtain ⟨hst, hcnt, hbit, haddr⟩ := hend
  have hstep := step_frameEnd hrst hst hcnt.le hbit haddr
  have hkeep := step_keepsWhileBusy (by simp [hst]) hrst hstep
  exact ⟨_, hstep, rfl, (cmdReady_iff _).2 rfl, txActive_eq_false_of_idle rfl, rfl, by simp, by simp, answers_respond _ _ _,
    canShow_eq_false_at_tend rfl (by simp), hkeep.config, hkeep.sameBytes, hkeep.par⟩

/-! ### The low part of a pulse (R146) -/

/-- Out of its last tick the low part leads to the high part of the next bit or of the next byte, or to the frame end. -/
theorem step_lowEnds {s : State} (hrst : s.ports.rst = false) (hst : s.st = .txl) (hcnt : s.cnt = 1)
    (haddr : s.bytePtr < s.len) : ∃ t, step s = .next t ∧ (t.st = .txh ∨ t.st = .idle) := by
  by_cases hbit : s.bitIdx = 0
  · by_cases hbyte : s.bytePtr + 1 < s.len
    · exact ⟨_, step_nextByte hrst hst hcnt.le hbit hbyte, .inl rfl⟩
    · exact ⟨_, step_frameEnd hrst hst hcnt.le hbit (Nat.not_lt.1 hbyte), .inr rfl⟩
  · exact ⟨_, step_nextBit hrst hst hcnt.le hbit haddr, .inl rfl⟩

/-- Settles O29: a low tick is `lowGoesOn`, `nextBit`, `nextByte` or `frameEnd`, and `CNT` ticks run through the whole part. -/
theorem lowPhaseLastsLowTicks : Obligations.LowPhaseLastsLowTicks := by
  refine ⟨fun s hst hrst haddr hcnt => ⟨dout_eq_false_of_ne_txh (by simp [hst]), ?_⟩, fun s hinv hlow hst hcnt => ?_⟩
  · have hbusy : s.st ≠ .idle := by simp [hst]
    by_cases hmore : 1 < s.cnt
    · have hstep := step_lowGoesOn hrst hst hmore
      have hkeep := step_keepsWhileBusy hbusy hrst hstep
      refine ⟨_, hstep, hkeep.config, hkeep.sameBytes, hkeep.par, hkeep.now, ?_⟩
      rw [if_pos hmore]
      exact ⟨by simp [hst], by simp, by simp, by simp, hkeep.latch (by simp [hst]), rfl⟩
    · have hlast : s.cnt ≤ 1 := Nat.not_lt.1 hmore
      by_cases hbit : s.bitIdx = 0
      · have hnobit : ¬ 0 < s.bitIdx.toNat := by simp [hbit]
        by_cases hbyte : s.bytePtr + 1 < s.len
        · have hstep := step_nextByte hrst hst hlast hbit hbyte
          have hkeep := step_keepsWhileBusy hbusy hrst hstep
          refine ⟨_, hstep, hkeep.config, hkeep.sameBytes, hkeep.par, hkeep.now, ?_⟩
          rw [if_neg hmore, if_neg hnobit, if_pos hbyte]
          exact ⟨rfl, rfl, rfl, State.nextHostTick_highTicks s _, hkeep.latch (by simp), rfl⟩
        · have hstep := step_frameEnd hrst hst hlast hbit (Nat.not_lt.1 hbyte)
          have hkeep := step_keepsWhileBusy hbusy hrst hstep
          refine ⟨_, hstep, hkeep.config, hkeep.sameBytes, hkeep.par, hkeep.now, ?_⟩
          rw [if_neg hmore, if_neg hnobit, if_neg hbyte]
          exact ⟨rfl, rfl, by simp, answers_respond _ _ _⟩
      · have hstep := step_nextBit hrst hst hlast hbit haddr
        have hkeep := step_keepsWhileBusy hbusy hrst hstep
        have hbelow : (s.bitIdx - 1).toNat = s.bitIdx.toNat - 1 := by bv_omega
        refine ⟨_, hstep, hkeep.config, hkeep.sameBytes, hkeep.par, hkeep.now, ?_⟩
        rw [if_neg hmore, if_pos (by bv_omega : 0 < s.bitIdx.toNat), ← hbelow]
        exact ⟨rfl, rfl, rfl, State.nextHostTick_highTicks s _, hkeep.latch (by simp), rfl⟩
  · have htx : txActive s = true := (txActive_iff s).2 (.inr hst)
    rw [← hcnt]
    constructor
    · intro k hk
      obtain ⟨t, hrun, hdown⟩ := runTicks_countDown hlow htx hk
      have htst : t.st = .txl := hdown.st.trans hst
      exact ⟨t, hrun, htst, dout_eq_false_of_ne_txh (by simp [htst])⟩
    · obtain ⟨t, hdown, hone, hlast⟩ := runTicks_cnt hlow htx (hinv.tx_cnt htx)
      have haddr : t.bytePtr < t.len := by rw [hdown.bytePtr, hdown.len]; exact hinv.tx_addr htx
      obtain ⟨u, hstep, hedge⟩ := step_lowEnds hdown.resetLow.ports (hdown.st.trans hst) hone haddr
      exact ⟨u, hlast u hstep, hedge⟩

end Sys2Proof.Machine
end

