-- ==== Sys2Proof/Proofs/LatchTimer.lean ====
section
/-! The latch timer: what moves it (43_latch_timer.md R180) and the command that reads it (R184). -/

namespace Sys2Proof.Machine

/-! ### What moves the timer (R180) -/

theorem sameLatch_nextHostTick (s : State) : SameLatch s s.nextHostTick := ⟨by simp, by simp⟩

theorem SameLatch.trans {s t u : State} (hst : SameLatch s t) (htu : SameLatch t u) : SameLatch s u :=
  ⟨htu.lv.trans hst.lv, htu.tend.trans hst.tend⟩

/-- No command touches the timer, CFG included (40_config_query.md R93). -/
theorem exec_sameLatch {s t : State} {i : Instr} (h : exec i s = .next t) : SameLatch s t := by
  cases exec_effect h with
  | answer ws code data inRange eq => subst eq; exact ⟨rfl, rfl⟩
  | configure count order speed cmd valid eq => subst eq; exact ⟨rfl, rfl⟩
  | startsShow cmd pixels eq => subst eq; exact ⟨rfl, rfl⟩

/-- In IDLE no tick but a reset touches the timer: it passes time, answers an illegal word, or runs a command. -/
theorem step_sameLatch_of_idle {s t : State} (hidle : s.st = .idle) (hrst : s.ports.rst = false)
    (h : step s = .next t) : SameLatch s t := by
  have hnext := sameLatch_nextHostTick s
  cases step_effect h with
  | reset rst => simp [hrst] at rst
  | nothing _ _ _ eq => subst eq; exact hnext.trans ⟨rfl, rfl⟩
  | illegal _ _ _ _ _ eq => subst eq; exact hnext.trans ⟨rfl, rfl⟩
  | command _ _ _ _ _ run => exact hnext.trans (exec_sameLatch run)
  | waiting _ st | frameStart _ st | highGoesOn _ st | highEnds _ st | lowGoesOn _ st | nextBit _ st | nextByte _ st
  | frameEnd _ st => simp [hidle] at st

/-- A busy block comes back to IDLE only by a frame end, which stamps the tick that follows it (42_frame_transmit.md R147). -/
theorem step_to_idle_of_busy {s t : State} (hbusy : s.st ≠ .idle) (hrst : s.ports.rst = false) (hidle : t.st = .idle)
    (h : step s = .next t) : s.st = .txl ∧ t.lv = true ∧ t.tend = s.now + 1 := by
  cases step_effect h with
  | reset rst => simp [hrst] at rst
  | nothing _ st | illegal _ st | command _ st => exact absurd st hbusy
  | waiting _ st _ eq | frameStart _ st _ _ eq | highGoesOn _ st _ eq | highEnds _ st _ _ eq | lowGoesOn _ st _ eq
  | nextBit _ st _ _ _ eq | nextByte _ st _ _ _ eq => subst eq; simp [st] at hidle
  | frameEnd _ st _ _ _ eq => subst eq; exact ⟨st, rfl, by simp⟩

/-- Settles O36: an idle tick and a tick that stays busy keep the timer; a busy tick that ends in IDLE is a frame end, whose
stamp `NOW + 1` lies after every stamp not in the future. -/
theorem latchTimerMovesOnlyAtFrameEnd : Obligations.LatchTimerMovesOnlyAtFrameEnd := by
  refine ⟨fun s t hrst h => ?_, fun s t i => exec_sameLatch⟩
  by_cases hidle : s.st = .idle
  · exact .inl (step_sameLatch_of_idle hidle hrst h)
  · by_cases hend : t.st = .idle
    · obtain ⟨hlow, hlv, htend⟩ := step_to_idle_of_busy hidle hrst hend h
      exact .inr ⟨hlow, hend, hlv, htend, fun _ hpast => by omega⟩
    · exact .inl ((step_keepsWhileBusy hidle hrst h).latch hend)

/-! ### CANSHOW (R184) -/

theorem flagData_canShow (s : State) :
    flagData (canShow s) = if s.lv = false ∨ s.now - s.tend ≥ (s.par.timing s.speed).tlatch then 1 else 0 :=
  if_congr (canShow_iff s) rfl rfl

/-- A word presented for one tick to a busy block makes no difference, whatever the word (10_state.md R29). -/
theorem step_presents_once_of_busy {s : State} (hbusy : s.st ≠ .idle) (w : CmdWord) :
    step (s.presents (.once w)) = step (s.presents .silent) := by
  have honce := State.nextHostTick_presents (p := .once w) rfl s
  have hsilent := State.nextHostTick_presents (p := .silent) rfl s
  exact step_congr_of_busy hbusy rfl (honce.trans hsilent.symm)

/-- Settles O20: CANSHOW is its response, whose data is the formula of `CanShow()`; a busy block does not see its word. -/
theorem canshowAnswersLatchQuery : Obligations.CanshowAnswersLatchQuery := by
  refine ⟨by decide, fun s => ?_, fun s hbusy => step_presents_once_of_busy hbusy _⟩
  rw [← flagData_canShow]
  exact ⟨_, rfl, keepsRegisters_respond _ _ _, sameBytes_respond _ _ _, answers_respond _ _ _⟩

end Sys2Proof.Machine
end

