-- ==== Sys2Proof/Proofs/Reset.lean ====
section
/-! Reset and time: `rst` leads to the reset state, and without it every tick moves time on (70_reset_and_hazards.md R230). -/

namespace Sys2Proof.Machine

/-- Every command takes the one tick it is accepted in, SHOW included, which answers only later. -/
theorem exec_now {s t : State} {i : Instr} (h : exec i s = .next t) : t.now = s.now + 1 := by
  cases exec_effect h with
  | answer ws code data inRange eq => subst eq; rfl
  | configure count order speed cmd valid eq => subst eq; simp
  | startsShow cmd pixels eq => subst eq; rfl

/-- Without `rst` every tick is one tick later (10_state.md R20). -/
theorem step_now_of_rst_low {s t : State} (hrst : s.ports.rst = false) (h : step s = .next t) : t.now = s.now + 1 := by
  by_cases hidle : s.st = .idle
  · cases step_effect h with
    | reset rst => simp [hrst] at rst
    | nothing _ _ _ eq | illegal _ _ _ _ _ eq => subst eq; simp
    | command _ _ _ _ _ run => simpa using exec_now run
    | waiting _ st | frameStart _ st | highGoesOn _ st | highEnds _ st | lowGoesOn _ st | nextBit _ st | nextByte _ st
    | frameEnd _ st => simp [hidle] at st
  · exact (step_keepsWhileBusy hidle hrst h).now

/-- Settles O46: with `rst` the step answers `afterReset`, whose buffer is empty as `N = 0`; without it time has moved on. -/
theorem resetPinLeadsToResetState : Obligations.ResetPinLeadsToResetState := by
  refine ⟨fun s hrst => ⟨_, step_reset hrst, ?_⟩, fun s t hrst h => ?_⟩
  · have hbytes : s.nextHostTick.afterReset.rawBytes = [] := State.rawBytes_eq_nil_of_n_eq_zero rfl
    exact ⟨rfl, rfl, rfl, hbytes, rfl, rfl, rfl, rfl, State.nextHostTick_par s⟩
  · rw [step_now_of_rst_low hrst h]
    exact Nat.succ_ne_zero s.now

end Sys2Proof.Machine
end

