-- ==== Sys2Proof/Proofs/WordRoundTrip.lean ====
section
/-! Words and commands correspond (30_encoding.md sections 1, 2 and 6): decoding the word of a command, and the opcode table. -/

namespace Sys2Proof.Machine

/-- The word of a command carries it: the commands with operands by their fields, the others by their one word. -/
theorem decode_encode (i : Instr) : decode (encode i) = .ok i := by
  cases i with
  | nop | clear | showFrame | canshow | numpix => decide
  | cfg count order speed => exact decode_encode_cfg count order speed
  | setpix index color => exact decode_encode_setpix index color
  | getpix index => exact decode_encode_getpix index
  | fill color first count => exact decode_encode_fill color first count

/-- Settles O1, command by command. -/
theorem decodeOfEncodeIsIdentity : Obligations.DecodeOfEncodeIsIdentity := decode_encode

/-- Settles O2: a legal word has its command's opcode, operands and zero fields, and they are all its bits. -/
theorem encodeOfDecodeIsIdentity : Obligations.EncodeOfDecodeIsIdentity := fun _ _ => encode_of_decode

/-- Settles O5: R74 lists ten words, and each is looked up. -/
theorem workedEncodingsDecode : Obligations.WorkedEncodingsDecode :=
  ⟨by decide, by decide, by decide, by decide, by decide, by decide, by decide, by decide, by decide, by decide⟩

/-! ### The opcode table (30_encoding.md section 2) -/

/-- Every command's word matches the row of its mnemonic. -/
theorem encode_matches_row (i : Instr) : Laws.RowMatch.Statement i := by
  cases i with
  | nop => exact Laws.RowMatch.nop
  | cfg count order speed => exact Laws.RowMatch.cfg count order speed
  | setpix index color => exact Laws.RowMatch.setpix index color
  | getpix index => exact Laws.RowMatch.getpix index
  | fill color first count => exact Laws.RowMatch.fill color first count
  | clear => exact Laws.RowMatch.clear
  | showFrame => exact Laws.RowMatch.showFrame
  | canshow => exact Laws.RowMatch.canshow
  | numpix => exact Laws.RowMatch.numpix

/-- A mnemonic has one row. -/
theorem row_eq_of_mnemonic_eq :
    ∀ row ∈ opcodeTable, ∀ row' ∈ opcodeTable, row.mnemonic = row'.mnemonic → row = row' := by
  decide

/-- A word under a mask is its fields under the fields of the mask. -/
theorem and_packWord_eq_iff {w : CmdWord} {op op' : BitVec 4} {a a' b b' : BitVec 16} {d d' : BitVec 32} :
    w &&& packWord op' a' b' d' = packWord op a b d ↔
      opField w &&& op' = op ∧ aField w &&& a' = a ∧ bField w &&& b' = b ∧ dField w &&& d' = d := by
  nth_rw 1 [← packWord_fields w]
  rw [packWord_and]
  exact ⟨packWord_inj, fun ⟨hop, ha, hb, hd⟩ => by rw [hop, ha, hb, hd]⟩

/-- The bits a CFG's mask selects in the type field are the must-be-zero bits of R64. -/
theorem extractLsb'_eq_zero_of_and_mbz {b : BitVec 16} (h : b &&& 0xFE00#16 = 0) : b.extractLsb' 9 7 = 0 := by
  have hmask : (0xFE00#16).extractLsb' 9 7 = BitVec.allOnes 7 := by decide
  calc b.extractLsb' 9 7
      = b.extractLsb' 9 7 &&& (0xFE00#16).extractLsb' 9 7 := by rw [hmask, BitVec.and_allOnes]
    _ = (b &&& 0xFE00#16).extractLsb' 9 7 := BitVec.extractLsb'_and.symm
    _ = 0 := by rw [h]; rfl

/-- A row of format `Z` fixes every bit of its word. -/
theorem eq_of_and_fullMask {w p : CmdWord} (h : w &&& 0xFFFFFFFFFFFFFFFFF = p) : p = w := by
  rw [← h]
  exact BitVec.and_allOnes

/-- A word that matches a row is the word of a command of the row: the mask fixes the opcode and the zero fields, and the other
fields are the operands. -/
theorem exists_encode_of_matches_row {w : CmdWord} {row : OpcodeRow} (hrow : row ∈ opcodeTable)
    (h : w &&& row.mask = row.pattern) : ∃ i, encode i = w ∧ i.mnemonic = row.mnemonic := by
  simp only [opcodeTable, List.mem_cons, List.not_mem_nil, or_false] at hrow
  have hw := packWord_fields w
  rcases hrow with rfl | rfl | rfl | rfl | rfl | rfl | rfl | rfl | rfl
  · exact ⟨.nop, eq_of_and_fullMask h, rfl⟩
  · obtain ⟨hop, -, hb, hd⟩ := (and_packWord_eq_iff (op := 1) (op' := .allOnes 4) (a := 0) (a' := 0) (b := 0)
      (b' := 0xFE00) (d := 0) (d' := .allOnes 32)).1 h
    rw [BitVec.and_allOnes] at hop hd
    refine ⟨.cfg (aField w) ((bField w).extractLsb' 0 8) (speedOfBit ((bField w).extractLsb' 8 1)), ?_, rfl⟩
    rwa [encode, cfgTypeField_eq (extractLsb'_eq_zero_of_and_mbz hb), ← hop, ← hd]
  · obtain ⟨hop, -, hb, -⟩ := (and_packWord_eq_iff (op := 2) (op' := .allOnes 4) (a := 0) (a' := 0) (b := 0)
      (b' := .allOnes 16) (d := 0) (d' := 0)).1 h
    rw [BitVec.and_allOnes] at hop hb
    exact ⟨.setpix (aField w) (dField w), by rwa [encode, ← hop, ← hb], rfl⟩
  · obtain ⟨hop, -, hb, hd⟩ := (and_packWord_eq_iff (op := 3) (op' := .allOnes 4) (a := 0) (a' := 0) (b := 0)
      (b' := .allOnes 16) (d := 0) (d' := .allOnes 32)).1 h
    rw [BitVec.and_allOnes] at hop hb hd
    exact ⟨.getpix (aField w), by rwa [encode, ← hop, ← hb, ← hd], rfl⟩
  · obtain ⟨hop, -, -, -⟩ := (and_packWord_eq_iff (op := 4) (op' := .allOnes 4) (a := 0) (a' := 0) (b := 0)
      (b' := 0) (d := 0) (d' := 0)).1 h
    rw [BitVec.and_allOnes] at hop
    exact ⟨.fill (dField w) (aField w) (bField w), by rwa [encode, ← hop], rfl⟩
  · exact ⟨.clear, eq_of_and_fullMask h, rfl⟩
  · exact ⟨.showFrame, eq_of_and_fullMask h, rfl⟩
  · exact ⟨.canshow, eq_of_and_fullMask h, rfl⟩
  · exact ⟨.numpix, eq_of_and_fullMask h, rfl⟩

/-- Settles O4: a legal word matches its command's row, and a word that matches a row is the word of a command. -/
theorem decodeAgreesWithOpcodeTable : Obligations.DecodeAgreesWithOpcodeTable := by
  refine fun w row hrow => ⟨fun hmatch => ?_, fun ⟨i, hdecode, hmnemonic⟩ => ?_⟩
  · obtain ⟨i, rfl, hmnemonic⟩ := exists_encode_of_matches_row hrow hmatch
    exact ⟨i, decode_encode i, hmnemonic⟩
  · obtain ⟨row', hrow', hmnemonic', hmatch⟩ := encode_matches_row i
    obtain rfl := row_eq_of_mnemonic_eq row hrow row' hrow' (hmnemonic.symm.trans hmnemonic'.symm)
    rwa [← encode_of_decode hdecode]

end Sys2Proof.Machine
end

