-- ==== Sys2Proof/Proofs/Invariant.lean ====
section
/-! The invariant of 10_state.md R24: it holds at reset, every step keeps it, and from it every step answers (60_exceptions.md R200). -/

namespace Sys2Proof.Machine

/-- The part of the invariant about the buffer, R24 (a) and (b) and the canonical form. -/
structure BufferInv (s : State) : Prop where
  len_le : s.len ≤ s.par.maxBytes
  raw_wf : s.raw.wf = true
  raw_within : s.raw.within s.len = true
  order_valid : validOrder s.order = true

/-- The part of the invariant about the sequencer, R24 (c) and (d). -/
structure SequencerInv (s : State) : Prop where
  busy_pixels : s.st ≠ .idle → 1 ≤ s.n.toNat
  tx_addr : txActive s = true → s.bytePtr < s.len
  tx_cnt : txActive s = true → 1 ≤ s.cnt
  high_cnt : s.st = .txh → s.cnt ≤ s.highTicks s.curBit
  low_cnt : s.st = .txl → s.cnt ≤ s.lowTicks s.curBit

theorem inv_iff (s : State) : Inv s ↔ BufferInv s ∧ SequencerInv s ∧ (s.lv = true → s.tend ≤ s.now) := by
  constructor
  · intro ⟨hlen, hwf, hwithin, horder, hpixels, haddr, hcnt, hhigh, hlow, hlatch⟩
    exact ⟨⟨hlen, hwf, hwithin, horder⟩, ⟨hpixels, haddr, hcnt, hhigh, hlow⟩, hlatch⟩
  · intro ⟨⟨hlen, hwf, hwithin, horder⟩, ⟨hpixels, haddr, hcnt, hhigh, hlow⟩, hlatch⟩
    exact ⟨hlen, hwf, hwithin, horder, hpixels, haddr, hcnt, hhigh, hlow, hlatch⟩

/-! ### The timing of the class in force (00_scope.md R5) -/

/-- Every phase of a pulse has a tick, and both bit values take one bit period (R5 (a), (b)). -/
theorem State.timing_phases (s : State) :
    1 ≤ s.timing.t0h ∧ 1 ≤ s.timing.t0l ∧ 1 ≤ s.timing.t1h ∧ 1 ≤ s.timing.t1l ∧
    s.timing.t0h + s.timing.t0l = s.timing.t1h + s.timing.t1l := by
  have hwf : s.timing.wf = true := by
    unfold State.timing Params.timing
    cases s.speed with
    | standard => exact s.par.standard_wf
    | slow => exact s.par.slow_wf
  simp only [Timing.wf, Bool.and_eq_true, decide_eq_true_eq] at hwf
  obtain ⟨⟨⟨⟨⟨⟨h0, l0⟩, h1⟩, l1⟩, hperiod⟩, -⟩, -⟩ := hwf
  exact ⟨h0, l0, h1, l1, hperiod⟩

theorem State.highTicks_pos (s : State) (v : Bool) : 0 < s.highTicks v := by
  obtain ⟨h0, -, h1, -, -⟩ := s.timing_phases
  cases v with
  | false => exact h0
  | true => exact h1

theorem State.lowTicks_pos (s : State) (v : Bool) : 0 < s.lowTicks v := by
  obtain ⟨-, l0, -, l1, -⟩ := s.timing_phases
  cases v with
  | false => exact l0
  | true => exact l1

theorem State.highTicks_add_lowTicks (s : State) (v : Bool) : s.highTicks v + s.lowTicks v = s.timing.tbit := by
  obtain ⟨-, -, -, -, hperiod⟩ := s.timing_phases
  cases v with
  | false => rfl
  | true => exact hperiod.symm

/-! ### The buffer -/

theorem BufferInv.congr {s t : State} (h : BufferInv s) (hconfig : SameConfig s t) (hraw : t.raw = s.raw)
    (hpar : t.par = s.par) : BufferInv t := by
  have hlen : t.len = s.len := State.len_congr hconfig.n hconfig.order
  exact ⟨by rw [hlen, hpar]; exact h.len_le, by rw [hraw]; exact h.raw_wf, by rw [hraw, hlen]; exact h.raw_within,
    by rw [hconfig.order]; exact h.order_valid⟩

/-- A buffer that lists nothing and fits is in order. -/
theorem BufferInv.of_raw_eq_nil {s : State} (hraw : s.raw = []) (hlen : s.len ≤ s.par.maxBytes)
    (horder : validOrder s.order = true) : BufferInv s :=
  ⟨hlen, by rw [hraw]; rfl, by rw [hraw]; rfl, horder⟩

theorem State.len_eq_zero {s : State} (h : s.n = 0) : s.len = 0 := by
  simp [State.len, h]

/-- A CFG leaves a buffer that fits: of the size asked for, or empty (40_config_query.md R91, R92). -/
theorem State.configure_len_le (s : State) (count : PixelCount) (order : BitVec 8) (speed : Speed) :
    (s.configure count order speed).len ≤ s.par.maxBytes := by
  by_cases hfits : count.toNat * channelsOf order ≤ s.par.maxBytes
  · have hn : (s.configure count order speed).n = count := if_pos hfits
    rwa [State.len, hn]
  · have hn : (s.configure count order speed).n = 0 := if_neg hfits
    rw [State.len_eq_zero hn]
    exact Nat.zero_le _

theorem exec_bufferInv {s t : State} {i : Instr} (hs : BufferInv s) (h : exec i s = .next t) : BufferInv t := by
  cases exec_effect h with
  | answer ws code data inRange eq =>
    subst eq
    exact ⟨hs.len_le, Memory.putAll_wf hs.raw_wf ws, Memory.putAll_within hs.raw_within inRange, hs.order_valid⟩
  | configure count order speed cmd valid eq =>
    subst eq
    exact .of_raw_eq_nil rfl (s.configure_len_le count order speed) valid
  | startsShow cmd pixels eq =>
    subst eq
    exact hs.congr ⟨rfl, rfl, rfl⟩ rfl rfl

/-- The reset state, whatever the parameters and the host, keeps the invariant: nothing is stored, sent or stamped. -/
theorem Inv.of_reset {s : State} (hn : s.n = 0) (horder : s.order = 0x06) (hraw : s.raw = []) (hst : s.st = .idle)
    (hlv : s.lv = false) : Inv s := by
  refine (inv_iff s).2 ⟨.of_raw_eq_nil hraw ?_ ?_, ?_, ?_⟩
  · rw [State.len_eq_zero hn]
    exact Nat.zero_le _
  · rw [horder]
    decide
  · constructor <;> simp [hst, txActive]
  · simp [hlv]

/-- Settles O48: the registers of the reset state have the values `Inv.of_reset` asks for. -/
theorem invariantHoldsAtReset : Obligations.InvariantHoldsAtReset := fun _ _ => .of_reset rfl rfl rfl rfl rfl

/-! ### The sequencer -/

theorem one_le_toNat_of_ne_zero {n : PixelCount} (h : n ≠ 0) : 1 ≤ n.toNat := by
  bv_omega

theorem SequencerInv.of_idle {s : State} (hst : s.st = .idle) : SequencerInv s := by
  constructor <;> simp [hst]

theorem SequencerInv.of_wait {s : State} (hst : s.st = .wait) (hpixels : 1 ≤ s.n.toNat) : SequencerInv s := by
  constructor <;> simp [hst, hpixels]

theorem SequencerInv.of_high {s : State} (hst : s.st = .txh) (hpixels : 1 ≤ s.n.toNat) (haddr : s.bytePtr < s.len)
    (hpos : 1 ≤ s.cnt) (hcnt : s.cnt ≤ s.highTicks s.curBit) : SequencerInv s := by
  constructor <;> simp [hst, hpixels, haddr, hpos, hcnt]

theorem SequencerInv.of_low {s : State} (hst : s.st = .txl) (hpixels : 1 ≤ s.n.toNat) (haddr : s.bytePtr < s.len)
    (hpos : 1 ≤ s.cnt) (hcnt : s.cnt ≤ s.lowTicks s.curBit) : SequencerInv s := by
  constructor <;> simp [hst, hpixels, haddr, hpos, hcnt]

theorem State.curBit_congr {s t : State} (hraw : t.raw = s.raw) (hbyte : t.bytePtr = s.bytePtr)
    (hbit : t.bitIdx = s.bitIdx) : t.curBit = s.curBit := by
  simp only [State.curBit, hbyte, hbit, State.byteAt_congr hraw]

/-- A part of a pulse that has a tick left counts down to one that is as long as it may be (R145, R146). -/
theorem SequencerInv.countDown {s : State} (h : SequencerInv s) (htx : txActive s = true) (hmore : 1 < s.cnt) :
    SequencerInv s.nextHostTick.countDown.noResponse := by
  have hbusy : s.st ≠ .idle := by rcases (txActive_iff s).1 htx with hst | hst <;> simp [hst]
  have hbit : s.nextHostTick.countDown.noResponse.curBit = s.curBit :=
    State.curBit_congr (by simp) (by simp) (by simp)
  have hlen : s.nextHostTick.countDown.noResponse.len = s.len := State.nextHostTick_len s
  have hpixels : 1 ≤ s.nextHostTick.countDown.noResponse.n.toNat := by simpa using h.busy_pixels hbusy
  have haddr : s.nextHostTick.countDown.noResponse.bytePtr < s.nextHostTick.countDown.noResponse.len := by
    simpa [hlen] using h.tx_addr htx
  have hpos : 1 ≤ s.nextHostTick.countDown.noResponse.cnt := by
    simp only [State.noResponse_cnt, State.countDown_cnt, State.nextHostTick_cnt]
    omega
  rcases (txActive_iff s).1 htx with hst | hst
  · refine .of_high (by simp [hst]) hpixels haddr hpos ?_
    rw [hbit, State.highTicks_congr (s := s) (by simp) (by simp)]
    exact le_trans (by simp) (h.high_cnt hst)
  · refine .of_low (by simp [hst]) hpixels haddr hpos ?_
    rw [hbit, State.lowTicks_congr (s := s) (by simp) (by simp)]
    exact le_trans (by simp) (h.low_cnt hst)

/-- A pulse that starts at a byte of the buffer has the high time of its bit left (R144, R146). -/
theorem SequencerInv.startPulse {s : State} (hpixels : 1 ≤ s.n.toNat) {addr : Nat} (haddr : addr < s.len)
    (bit : BitVec 3) : SequencerInv (s.nextHostTick.startPulse addr bit (s.byteAt addr)).noResponse := by
  have hbit : (s.nextHostTick.startPulse addr bit (s.byteAt addr)).noResponse.curBit =
      (s.byteAt addr).getLsbD bit.toNat :=
    congrArg (fun v : Byte => v.getLsbD bit.toNat) (State.nextHostTick_byteAt s addr)
  refine .of_high rfl (by simpa using hpixels) ?_ (State.highTicks_pos _ _) ?_
  · exact (State.nextHostTick_len s).symm ▸ haddr
  · rw [hbit]
    exact le_refl _

/-- The low part that follows a high part has the low time of the bit left (R145). -/
theorem SequencerInv.startLow {s : State} (h : SequencerInv s) (hst : s.st = .txh) :
    SequencerInv (s.nextHostTick.startLow s.curBit).noResponse := by
  have hbit : (s.nextHostTick.startLow s.curBit).noResponse.curBit = s.curBit :=
    State.curBit_congr (by simp) (by simp) (by simp)
  have hlen : (s.nextHostTick.startLow s.curBit).noResponse.len = s.len := State.nextHostTick_len s
  refine .of_low rfl (by simpa using h.busy_pixels (by simp [hst])) ?_ (State.lowTicks_pos _ _) ?_
  · simpa [hlen] using h.tx_addr ((txActive_iff s).2 (.inl hst))
  · rw [hbit]
    exact le_refl _

theorem step_sequencerInv {s t : State} (hs : SequencerInv s) (h : step s = .next t) : SequencerInv t := by
  cases step_effect h with
  | reset _ eq | nothing _ st _ eq | illegal _ st _ _ _ eq | frameEnd _ st _ _ _ eq =>
    subst eq
    exact .of_idle (by simp [*])
  | command _ st _ i _ run =>
    rcases exec_st run with hkeep | ⟨hwait, rfl, hpixels⟩
    · exact .of_idle (by simpa [st] using hkeep)
    · refine .of_wait hwait ?_
      rw [(exec_sameConfig (by simp) run).n]
      exact one_le_toNat_of_ne_zero hpixels
  | waiting _ st _ eq =>
    subst eq
    exact .of_wait (by simp [st]) (by simpa using hs.busy_pixels (by simp [st]))
  | frameStart _ st _ pixels eq =>
    subst eq
    exact .startPulse (hs.busy_pixels (by simp [st])) pixels 7
  | highGoesOn _ st cnt eq =>
    subst eq
    have htx : txActive s = true := (txActive_iff s).2 (.inl st)
    have hpos := hs.tx_cnt htx
    exact hs.countDown htx (by omega)
  | highEnds _ st _ _ eq =>
    subst eq
    exact hs.startLow st
  | lowGoesOn _ st cnt eq =>
    subst eq
    exact hs.countDown ((txActive_iff s).2 (.inr st)) cnt
  | nextBit _ st _ _ addr eq =>
    subst eq
    exact .startPulse (hs.busy_pixels (by simp [st])) addr _
  | nextByte _ st _ _ addr eq =>
    subst eq
    exact .startPulse (hs.busy_pixels (by simp [st])) addr 7

/-! ### The whole invariant -/

theorem sameConfig_nextHostTick (s : State) : SameConfig s s.nextHostTick :=
  ⟨by simp, by simp, by simp⟩

theorem SameConfig.trans {s t u : State} (hst : SameConfig s t) (htu : SameConfig t u) : SameConfig s u :=
  ⟨htu.n.trans hst.n, htu.order.trans hst.order, htu.speed.trans hst.speed⟩

/-- The four kinds of tick, for proofs about what a tick keeps: a reset, an IDLE tick that runs no command, an accepted command, and a
tick of a SHOW in progress. -/
inductive TickKind (s t : State) : Prop where
  | reset (rst : s.ports.rst = true) (eq : t = s.nextHostTick.afterReset)
  | quiet (keeps : KeepsRegisters s.nextHostTick t) (raw : t.raw = s.raw)
  | command (i : Instr) (accepts : Accepts s s.ports.cmd) (word : decode s.ports.cmd = .ok i)
      (run : exec i s.nextHostTick = .next t)
  | busy (keeps : KeepsWhileBusy s t)

theorem keepsRegisters_noResponse (s : State) : KeepsRegisters s s.noResponse :=
  ⟨⟨rfl, rfl, rfl⟩, rfl, ⟨rfl, rfl, rfl⟩, ⟨rfl, rfl⟩, ⟨rfl, rfl⟩, rfl⟩

theorem step_tickKind {s t : State} (h : step s = .next t) : TickKind s t := by
  by_cases hquiet : s.ports.rst = true ∨ s.st = .idle
  · cases step_effect h with
    | reset rst eq => exact .reset rst eq
    | nothing _ _ _ eq => subst eq; exact .quiet (keepsRegisters_noResponse _) (by simp)
    | illegal _ _ _ _ _ eq => subst eq; exact .quiet (keepsRegisters_respond _ _ _) (by simp)
    | command rst st valid i word run => exact .command i ⟨rst, st, valid, rfl⟩ word run
    | waiting rst st | frameStart rst st | highGoesOn rst st | highEnds rst st | lowGoesOn rst st | nextBit rst st
    | nextByte rst st | frameEnd rst st => simp [rst, st] at hquiet
  · rw [not_or, Bool.not_eq_true] at hquiet
    exact .busy (step_keepsWhileBusy hquiet.2 hquiet.1 h)

theorem step_bufferInv {s t : State} (hs : BufferInv s) (h : step s = .next t) : BufferInv t := by
  have hnext : BufferInv s.nextHostTick := hs.congr (sameConfig_nextHostTick s) (by simp) (by simp)
  cases step_tickKind h with
  | reset _ eq => subst eq; exact ((inv_iff _).1 (.of_reset rfl rfl rfl rfl rfl)).1
  | quiet keeps raw => exact hnext.congr keeps.config (by simp [raw]) keeps.surroundings.par
  | command _ _ _ run => exact exec_bufferInv hnext run
  | busy keeps => exact hs.congr keeps.config keeps.raw keeps.par

/-- No tick sets a time stamp in the future (R24(e)). -/
theorem step_latch_past {s t : State} (hs : s.lv = true → s.tend ≤ s.now) (h : step s = .next t) :
    t.lv = true → t.tend ≤ t.now := by
  intro hlv
  by_cases hrst : s.ports.rst = true
  · rw [step_reset hrst] at h
    cases h
    cases hlv
  rw [Bool.not_eq_true] at hrst
  have hnow := step_now_of_rst_low hrst h
  rcases latchTimerMovesOnlyAtFrameEnd.1 s t hrst h with hsame | ⟨-, -, -, htend, -⟩
  · have hpast := hs (hsame.lv ▸ hlv)
    rw [hsame.tend]
    omega
  · omega

/-- Settles O49: each of the three parts of the invariant is kept by every step. -/
theorem everyStepKeepsInvariant : Obligations.EveryStepKeepsInvariant := by
  intro s t hinv h
  obtain ⟨hbuffer, hsequencer, hlatch⟩ := (inv_iff s).1 hinv
  exact (inv_iff t).2 ⟨step_bufferInv hbuffer h, step_sequencerInv hsequencer h, step_latch_past hlatch h⟩

/-! ### What holds in every state -/

theorem exec_keeps_wf_par {s t : State} {i : Instr} (h : exec i s = .next t) :
    (s.raw.wf = true → t.raw.wf = true) ∧ t.par = s.par := by
  cases exec_effect h with
  | answer ws code data inRange eq => subst eq; exact ⟨fun hwf => Memory.putAll_wf hwf ws, rfl⟩
  | configure count order speed cmd valid eq => subst eq; exact ⟨fun _ => rfl, rfl⟩
  | startsShow cmd pixels eq => subst eq; exact ⟨id, rfl⟩

/-- Settles O51, by the kinds of tick: only a command writes the memory, by `putAll` or to the empty one. -/
theorem everyStepKeepsCanonicalMemory : Obligations.EveryStepKeepsCanonicalMemory := by
  intro s t h
  cases step_tickKind h with
  | reset _ eq => subst eq; exact ⟨fun _ => rfl, by simp⟩
  | quiet keeps raw => exact ⟨fun hwf => by rwa [raw], by simpa using keeps.surroundings.par⟩
  | command _ _ _ run => simpa using exec_keeps_wf_par run
  | busy keeps => exact ⟨fun hwf => by rwa [keeps.raw], keeps.par⟩

/-! ### Progress (60_exceptions.md R200) -/

theorem exec_clear (s : State) : exec .clear s = .next ((s.withRaw (clearWrites s)).respond .ok 0) := by
  rw [exec, execClear, withWrites_of_lt fun _ hc => (mem_clearWrites.1 hc).1]

theorem exec_showFrame_of_pixels {s : State} (h : s.n ≠ 0) : exec .showFrame s = .next s.startWait.noResponse := by
  rw [exec, execShow, if_neg h]

/-- Under a valid order every command answers: what it stores and reads lies in the buffer. -/
theorem exec_answers {s : State} (hv : validOrder s.order = true) (i : Instr) : ∃ t, exec i s = .next t := by
  cases i with
  | nop | canshow | numpix => exact ⟨_, rfl⟩
  | cfg count order speed =>
    by_cases h : validOrder order = true
    · exact ⟨_, exec_cfg_of_valid h s count speed⟩
    · exact ⟨_, exec_cfg_of_invalid (Bool.eq_false_iff.2 h) s count speed⟩
  | setpix index color =>
    by_cases h : index.toNat < s.n.toNat
    · exact ⟨_, exec_setpix_of_lt hv h color⟩
    · exact ⟨_, exec_setpix_of_ge h color⟩
  | getpix index => exact ⟨_, exec_getpix hv index⟩
  | fill color first count =>
    by_cases h : first.toNat < s.n.toNat
    · exact ⟨_, exec_fill_of_lt hv h color count⟩
    · exact ⟨_, exec_fill_of_ge h color count⟩
  | clear => exact ⟨_, exec_clear s⟩
  | showFrame =>
    by_cases h : s.n = 0
    · exact ⟨_, exec_showFrame_of_inert h⟩
    · exact ⟨_, exec_showFrame_of_pixels h⟩

theorem step_answers_of_idle {s : State} (hv : validOrder s.order = true) (hrst : s.ports.rst = false)
    (hst : s.st = .idle) : ∃ t, step s = .next t := by
  by_cases hvalid : s.ports.cmdValid = true
  · have haccepts : Accepts s s.ports.cmd := ⟨hrst, hst, hvalid, rfl⟩
    cases hword : decode s.ports.cmd with
    | ok i =>
      rw [step_command haccepts hword]
      exact exec_answers (by simpa using hv) i
    | error e => exact ⟨_, step_illegal haccepts hword⟩
  · exact ⟨_, step_nothing hrst hst (Bool.eq_false_iff.2 hvalid)⟩

theorem step_answers_of_wait {s : State} (hlen : 0 < s.len) (hrst : s.ports.rst = false) (hst : s.st = .wait) :
    ∃ t, step s = .next t := by
  by_cases hshow : canShow s = true
  · exact ⟨_, step_frameStart hrst hst hshow hlen⟩
  · exact ⟨_, step_waiting hrst hst (Bool.eq_false_iff.2 hshow)⟩

theorem step_answers_of_high {s : State} (haddr : s.bytePtr < s.len) (hrst : s.ports.rst = false) (hst : s.st = .txh) :
    ∃ t, step s = .next t := by
  by_cases hlast : s.cnt = 1
  · exact ⟨_, step_highEnds hrst hst hlast haddr⟩
  · exact ⟨_, step_highGoesOn hrst hst hlast⟩

theorem step_answers_of_low {s : State} (haddr : s.bytePtr < s.len) (hpos : 1 ≤ s.cnt) (hrst : s.ports.rst = false)
    (hst : s.st = .txl) : ∃ t, step s = .next t := by
  by_cases hmore : 1 < s.cnt
  · exact ⟨_, step_lowGoesOn hrst hst hmore⟩
  · obtain ⟨t, hstep, -⟩ := step_lowEnds hrst hst (by omega) haddr
    exact ⟨t, hstep⟩

/-- Settles O50: in each state of the sequencer the byte the tick reads, if it reads one, lies in the buffer. -/
theorem blockNeverStops : Obligations.BlockNeverStops := by
  intro s hinv
  by_cases hrst : s.ports.rst = true
  · exact ⟨_, step_reset hrst⟩
  rw [Bool.not_eq_true] at hrst
  cases hst : s.st with
  | idle => exact step_answers_of_idle hinv.order_valid hrst hst
  | wait => exact step_answers_of_wait (State.len_pos (hinv.busy_pixels (by simp [hst]))) hrst hst
  | txh => exact step_answers_of_high (hinv.tx_addr ((txActive_iff s).2 (.inl hst))) hrst hst
  | txl =>
    have htx : txActive s = true := (txActive_iff s).2 (.inr hst)
    exact step_answers_of_low (hinv.tx_addr htx) (hinv.tx_cnt htx) hrst hst

end Sys2Proof.Machine
end

