-- ==== Sys2Proof/Proofs/FrameSchedule.lean ====
section
/-! The schedule of a SHOW in closed form (42_frame_transmit.md section 6) and the gap before the next frame (43_latch_timer.md section 3).
A SHOW waits up to `lastWaitTick`; then bit `j` of the frame takes the ticks `j × TBIT` to `j × TBIT + TBIT − 1` of the frame. -/

namespace Sys2Proof.Machine

/-! ### A SHOW in progress -/

/-- `k` ticks after a SHOW was accepted in `s`, and before its frame has ended: what all these ticks keep. -/
structure DuringShow (s : State) (k : Nat) (t : State) : Prop where
  config : SameConfig s t
  latch : SameLatch s t
  raw : t.raw = s.raw
  par : t.par = s.par
  now : t.now = s.now + k
  resetLow : HostKeepsResetLow t

theorem DuringShow.len {s t : State} {k : Nat} (h : DuringShow s k t) : t.len = s.len :=
  State.len_congr h.config.n h.config.order

theorem DuringShow.timing {s t : State} {k : Nat} (h : DuringShow s k t) : t.timing = s.timing :=
  State.timing_congr h.par h.config.speed

theorem DuringShow.highTicks {s t : State} {k : Nat} (h : DuringShow s k t) (v : Bool) : t.highTicks v = s.highTicks v :=
  State.highTicks_congr h.par h.config.speed v

theorem DuringShow.lowTicks {s t : State} {k : Nat} (h : DuringShow s k t) (v : Bool) : t.lowTicks v = s.lowTicks v :=
  State.lowTicks_congr h.par h.config.speed v

/-- Every busy tick that does not end the frame carries on (`KeepsWhileBusy`). -/
theorem DuringShow.succ {s t u : State} {k : Nat} (h : DuringShow s k t) (hbusy : t.st ≠ .idle) (hbusy' : u.st ≠ .idle)
    (hstep : step t = .next u) : DuringShow s (k + 1) u := by
  have hkeep := step_keepsWhileBusy hbusy h.resetLow.ports hstep
  have hlatch := hkeep.latch hbusy'
  exact ⟨h.config.trans hkeep.config, h.latch.trans hlatch, hkeep.raw.trans h.raw, hkeep.par.trans h.par,
    by rw [hkeep.now, h.now, Nat.add_assoc], h.resetLow.next hkeep.host⟩

theorem runTicks_snoc {k : Nat} {s t u : State} (hrun : runTicks k s = .next t) (hstep : step t = .next u) :
    runTicks (k + 1) s = .next u := by
  rw [runTicks_add hrun, runTicks_succ hstep, runTicks]

/-! ### Waiting (42_frame_transmit.md R152) -/

theorem State.lt_lastWaitTick (s : State) : s.now < s.lastWaitTick := by
  unfold State.lastWaitTick
  split <;> omega

theorem State.lastWaitTick_le {s : State} (hpast : s.lv = true → s.tend ≤ s.now) :
    s.lastWaitTick ≤ s.now + s.timing.tlatch := by
  have hlatch := s.tlatch_pos
  unfold State.lastWaitTick
  split
  · have := hpast ‹_›
    omega
  · omega

/-- Between the acceptance and the last WAIT tick `CanShow()` is false, and in the last WAIT tick it is true. -/
theorem DuringShow.canShow_iff {s t : State} {k : Nat} (h : DuringShow s k t) (hpast : s.lv = true → s.tend ≤ s.now)
    (hk : 1 ≤ k) : canShow t = true ↔ s.lastWaitTick ≤ s.now + k := by
  rw [Machine.canShow_iff, show (t.par.timing t.speed) = s.timing from h.timing, h.latch.lv, h.latch.tend, h.now]
  unfold State.lastWaitTick
  cases hlv : s.lv with
  | false => simpa using hk
  | true =>
    have := hpast hlv
    simp only [reduceCtorEq, false_or, if_true]
    omega

/-- An accepted effective SHOW waits from the next tick on. -/
theorem step_acceptsShow {s : State} (hlow : HostKeepsResetLow s) (haccepts : AcceptsShow s) :
    ∃ t, step s = .next t ∧ DuringShow s 1 t ∧ t.st = .wait := by
  obtain ⟨hword, hpixels⟩ := haccepts
  have hstep : step s = .next s.nextHostTick.startWait.noResponse := by
    rw [step_command hword (decode_encode .showFrame)]
    exact exec_showFrame_of_pixels (by simpa using hpixels)
  exact ⟨_, hstep, ⟨⟨by simp, by simp, by simp⟩, ⟨by simp, by simp⟩, by simp, by simp, by simp, hlow.next rfl⟩, rfl⟩

/-- The block waits in every tick after the acceptance up to the last WAIT tick. -/
theorem runTicks_wait {s : State} (hinv : Inv s) (hlow : HostKeepsResetLow s) (haccepts : AcceptsShow s) {k : Nat}
    (hk : s.now + (k + 1) ≤ s.lastWaitTick) :
    ∃ t, runTicks (k + 1) s = .next t ∧ DuringShow s (k + 1) t ∧ t.st = .wait := by
  induction k with
  | zero =>
    obtain ⟨t, hstep, hduring, hst⟩ := step_acceptsShow hlow haccepts
    exact ⟨t, by rw [runTicks_succ hstep, runTicks], hduring, hst⟩
  | succ k ih =>
    obtain ⟨t, hrun, hduring, hst⟩ := ih (by omega)
    have hearly : canShow t = false := by
      rw [Bool.eq_false_iff, ne_eq, hduring.canShow_iff hinv.latch_past (by omega)]
      omega
    have hstep := step_waiting hduring.resetLow.ports hst hearly
    exact ⟨_, runTicks_snoc hrun hstep, hduring.succ (by simp [hst]) (by simp [hst]) hstep, by simp [hst]⟩

/-! ### One bit of the frame -/

/-- In tick `r` of the bit period of bit `j` of the frame, `k` ticks after the acceptance (R151). -/
structure Sending (s : State) (k j r : Nat) (t : State) : Prop where
  during : DuringShow s k t
  bytePtr : t.bytePtr = j / 8
  bitIdx : t.bitIdx.toNat = 7 - j % 8
  phase : if r < s.highTicks (s.frameBit j) then t.st = .txh ∧ t.cnt = s.highTicks (s.frameBit j) - r
    else t.st = .txl ∧ t.cnt = s.timing.tbit - r

/-- The serializer is at the bit of the frame that its position registers name (30_encoding.md R70). -/
theorem Sending.curBit {s t : State} {k j r : Nat} (h : Sending s k j r t) : t.curBit = s.frameBit j := by
  rw [State.curBit, State.frameBit, h.bytePtr, h.bitIdx, State.byteAt_congr h.during.raw]

theorem Sending.txActive {s t : State} {k j r : Nat} (h : Sending s k j r t) : txActive t = true := by
  have hphase := h.phase
  split at hphase
  · exact (txActive_iff t).2 (.inl hphase.1)
  · exact (txActive_iff t).2 (.inr hphase.1)

theorem Sending.busy {s t : State} {k j r : Nat} (h : Sending s k j r t) : t.st ≠ .idle := by
  rcases (txActive_iff t).1 h.txActive with hst | hst <;> simp [hst]

theorem Sending.addr {s t : State} {k j r : Nat} (h : Sending s k j r t) (hj : j < 8 * s.len) : t.bytePtr < t.len := by
  rw [h.bytePtr, h.during.len]
  omega

theorem State.highTicks_lt_tbit (s : State) (v : Bool) : s.highTicks v < s.timing.tbit := by
  have hsum := s.highTicks_add_lowTicks v
  have hlow := s.lowTicks_pos v
  omega

/-- Within its bit period a bit goes from tick to tick: it counts down, and after `TH` ticks the line goes low (R145, R146). -/
theorem Sending.nextTick {s t : State} {k j r : Nat} (h : Sending s k j r t) (hj : j < 8 * s.len)
    (hr : r + 1 < s.timing.tbit) : ∃ u, step t = .next u ∧ Sending s (k + 1) j (r + 1) u := by
  have hrst := h.during.resetLow.ports
  have hsum := s.highTicks_add_lowTicks (s.frameBit j)
  have hphase := h.phase
  by_cases hhigh : r < s.highTicks (s.frameBit j)
  · rw [if_pos hhigh] at hphase
    obtain ⟨hst, hcnt⟩ := hphase
    by_cases hlast : t.cnt = 1
    · have hstep := step_highEnds hrst hst hlast (h.addr hj)
      refine ⟨_, hstep, h.during.succ h.busy (by simp) hstep, by simp [h.bytePtr], by simp [h.bitIdx], ?_⟩
      rw [if_neg (by omega)]
      refine ⟨rfl, ?_⟩
      simp only [State.noResponse_cnt, State.startLow_cnt, State.nextHostTick_lowTicks, h.during.lowTicks, h.curBit]
      omega
    · have hstep := step_highGoesOn hrst hst hlast
      refine ⟨_, hstep, h.during.succ h.busy (by simp [hst]) hstep, by simp [h.bytePtr], by simp [h.bitIdx], ?_⟩
      rw [if_pos (by omega)]
      refine ⟨by simp [hst], ?_⟩
      simp only [State.noResponse_cnt, State.countDown_cnt, State.nextHostTick_cnt]
      omega
  · rw [if_neg hhigh] at hphase
    obtain ⟨hst, hcnt⟩ := hphase
    have hstep := step_lowGoesOn hrst hst (by omega)
    refine ⟨_, hstep, h.during.succ h.busy (by simp [hst]) hstep, by simp [h.bytePtr], by simp [h.bitIdx], ?_⟩
    rw [if_neg (by omega)]
    refine ⟨by simp [hst], ?_⟩
    simp only [State.noResponse_cnt, State.countDown_cnt, State.nextHostTick_cnt]
    omega

/-- The last tick of a bit period is the last tick of its low part. -/
theorem Sending.lastTick {s t : State} {k j r : Nat} (h : Sending s k j r t) (hr : r + 1 = s.timing.tbit) :
    t.st = .txl ∧ t.cnt = 1 := by
  have hlt := s.highTicks_lt_tbit (s.frameBit j)
  have hphase := h.phase
  rw [if_neg (by omega)] at hphase
  exact ⟨hphase.1, by omega⟩

/-- A pulse that starts at the position of bit `j` is in tick 0 of its bit period. -/
theorem Sending.of_startPulse {s t : State} {k j addr : Nat} {bit : BitVec 3} (h : DuringShow s k t)
    (hbusy : t.st ≠ .idle) (hstep : step t = .next (t.nextHostTick.startPulse addr bit (t.byteAt addr)).noResponse)
    (haddr : addr = j / 8) (hbit : bit.toNat = 7 - j % 8) :
    Sending s (k + 1) j 0 (t.nextHostTick.startPulse addr bit (t.byteAt addr)).noResponse := by
  refine ⟨h.succ hbusy (by simp) hstep, haddr, hbit, ?_⟩
  rw [if_pos (s.highTicks_pos _)]
  refine ⟨rfl, ?_⟩
  simp only [State.noResponse_cnt, State.startPulse_cnt, State.nextHostTick_highTicks, h.highTicks,
    State.byteAt_congr h.raw, State.frameBit, haddr, hbit, Nat.sub_zero]

/-- After the last tick of a bit period the next bit begins: the next lower one of the byte, or bit 7 of the next byte (R146). -/
theorem Sending.nextBit {s t : State} {k j r : Nat} (h : Sending s k j r t) (hj : j + 1 < 8 * s.len)
    (hr : r + 1 = s.timing.tbit) : ∃ u, step t = .next u ∧ Sending s (k + 1) (j + 1) 0 u := by
  have hrst := h.during.resetLow.ports
  obtain ⟨hst, hcnt⟩ := h.lastTick hr
  have hptr := h.bytePtr
  have hidx := h.bitIdx
  by_cases hbit : t.bitIdx = 0
  · have hzero : t.bitIdx.toNat = 0 := by simp [hbit]
    have hstep := step_nextByte hrst hst hcnt.le hbit (by rw [h.during.len]; omega)
    exact ⟨_, hstep, .of_startPulse h.during h.busy hstep (by omega) (by bv_omega)⟩
  · have hstep := step_nextBit hrst hst hcnt.le hbit (h.addr (by omega))
    exact ⟨_, hstep, .of_startPulse h.during h.busy hstep (by bv_omega) (by bv_omega)⟩

/-- The frame begins after the last WAIT tick, at bit 0 of the frame (R144). -/
theorem runTicks_frameStart {s : State} (hinv : Inv s) (hlow : HostKeepsResetLow s) (haccepts : AcceptsShow s) :
    ∃ t, runTicks (s.lastWaitTick - s.now + 1) s = .next t ∧ Sending s (s.lastWaitTick - s.now + 1) 0 0 t := by
  have hwait := s.lt_lastWaitTick
  obtain ⟨t, hrun, hduring, hst⟩ := runTicks_wait hinv hlow haccepts (k := s.lastWaitTick - s.now - 1) (by omega)
  rw [show s.lastWaitTick - s.now - 1 + 1 = s.lastWaitTick - s.now by omega] at hrun hduring
  have hready : canShow t = true := (hduring.canShow_iff hinv.latch_past (by omega)).2 (by omega)
  have hlen : 0 < t.len := by
    rw [hduring.len]
    exact State.len_pos (one_le_toNat_of_ne_zero haccepts.2)
  have hstep := step_frameStart hduring.resetLow.ports hst hready hlen
  exact ⟨_, runTicks_snoc hrun hstep, .of_startPulse hduring (by simp [hst]) hstep rfl rfl⟩

/-- A run that has come to a bit goes through its bit period. -/
theorem runTicks_bit {s t : State} {k j r : Nat} (hrun : runTicks k s = .next t) (h : Sending s k j 0 t)
    (hj : j < 8 * s.len) (hr : r < s.timing.tbit) :
    ∃ u, runTicks (k + r) s = .next u ∧ Sending s (k + r) j r u := by
  induction r with
  | zero => exact ⟨t, hrun, h⟩
  | succ r ih =>
    obtain ⟨u, hrun, hsending⟩ := ih (by omega)
    obtain ⟨v, hstep, hnext⟩ := hsending.nextTick hj hr
    exact ⟨v, runTicks_snoc hrun hstep, hnext⟩

/-- Tick `r` of the bit period of bit `j` comes `j × TBIT + r` ticks after the first tick of the frame. -/
theorem runTicks_frame {s : State} (hinv : Inv s) (hlow : HostKeepsResetLow s) (haccepts : AcceptsShow s) {j r : Nat}
    (hj : j < 8 * s.len) (hr : r < s.timing.tbit) :
    ∃ t, runTicks (s.lastWaitTick - s.now + 1 + (j * s.timing.tbit + r)) s = .next t ∧
      Sending s (s.lastWaitTick - s.now + 1 + (j * s.timing.tbit + r)) j r t := by
  induction j generalizing r with
  | zero =>
    obtain ⟨t, hrun, hsending⟩ := runTicks_frameStart hinv hlow haccepts
    simpa using runTicks_bit hrun hsending hj hr
  | succ j ih =>
    obtain ⟨t, hrun, hsending⟩ := ih (r := s.timing.tbit - 1) (by omega) (by omega)
    obtain ⟨u, hstep, hnext⟩ := hsending.nextBit hj (by omega)
    have hrun := runTicks_snoc hrun hstep
    rw [show s.lastWaitTick - s.now + 1 + (j * s.timing.tbit + (s.timing.tbit - 1)) + 1 =
      s.lastWaitTick - s.now + 1 + (j + 1) * s.timing.tbit by rw [Nat.succ_mul]; omega] at hrun hnext
    rw [← Nat.add_assoc]
    exact runTicks_bit hrun hnext hj hr

/-! ### The waveform (R151) -/

/-- Settles O34: tick `k` of the frame is tick `k mod TBIT` of the bit period of bit `k / TBIT`. -/
theorem frameWaveformClosedForm : Obligations.FrameWaveformClosedForm := by
  intro s hinv hlow haccepts k hk
  have htbit : 0 < s.timing.tbit := by
    have := s.highTicks_lt_tbit false
    omega
  have hj : k / s.timing.tbit < 8 * s.len := Nat.div_lt_of_lt_mul (by rwa [Nat.mul_comm])
  obtain ⟨t, hrun, h⟩ := runTicks_frame hinv hlow haccepts hj (Nat.mod_lt k htbit)
  rw [Nat.div_add_mod'] at hrun h
  have hwait := s.lt_lastWaitTick
  have hnow := h.during.now
  refine ⟨t, hrun, by omega, h.during.config, h.during.latch, .of_raw h.during.raw, h.txActive,
    Bool.eq_false_iff.2 (mt (cmdReady_iff t).1 h.busy), h.bytePtr, h.bitIdx, ?_⟩
  have hphase := h.phase
  split at hphase
  · rw [if_pos ‹_›]
    exact ⟨hphase.1, (dout_iff t).2 hphase.1, hphase.2⟩
  · rw [if_neg ‹_›]
    exact ⟨hphase.1, dout_eq_false_of_ne_txh (by simp [hphase.1]), hphase.2⟩

/-! ### The end of a SHOW (R147, R152, R186) -/

/-- The last tick of the last bit period is the frame end. -/
theorem Sending.atFrameEnd {s t : State} {k j r : Nat} (h : Sending s k j r t) (hj : j + 1 = 8 * s.len)
    (hr : r + 1 = s.timing.tbit) : AtFrameEnd t := by
  obtain ⟨hst, hcnt⟩ := h.lastTick hr
  have hidx := h.bitIdx
  refine ⟨hst, hcnt, by bv_omega, ?_⟩
  rw [h.bytePtr, h.during.len]
  omega

/-- After its `F` ticks the frame has ended. -/
theorem runTicks_frameEnd {s : State} (hinv : Inv s) (hlow : HostKeepsResetLow s) (haccepts : AcceptsShow s) :
    ∃ t u, DuringShow s (s.lastWaitTick - s.now + s.frameTicks) t ∧ AtFrameEnd t ∧ step t = .next u ∧
      runTicks (s.lastWaitTick - s.now + 1 + s.frameTicks) s = .next u := by
  have hlen : 0 < s.len := State.len_pos (one_le_toNat_of_ne_zero haccepts.2)
  have htbit := s.highTicks_lt_tbit false
  obtain ⟨t, hrun, h⟩ := runTicks_frame hinv hlow haccepts (j := 8 * s.len - 1) (r := s.timing.tbit - 1) (by omega)
    (by omega)
  have hticks : (8 * s.len - 1) * s.timing.tbit + (s.timing.tbit - 1) + 1 = s.frameTicks := by
    rw [Nat.add_assoc, Nat.sub_add_cancel (by omega), ← Nat.succ_mul, Nat.succ_eq_add_one,
      Nat.sub_add_cancel (by omega), State.frameTicks]
  have hend := h.atFrameEnd (by omega) (by omega)
  obtain ⟨u, hstep, -⟩ := frameEndStampsAndAnswers.1 t hend h.during.resetLow.ports
  refine ⟨t, u, ?_, hend, hstep, ?_⟩
  · rw [← hticks]
    convert h.during using 1
    omega
  · rw [← hticks, ← Nat.add_assoc]
    exact runTicks_snoc hrun hstep

/-- Settles O35: the WAIT ticks are `runTicks_wait`, and the frame ends as O30 says of every frame end. -/
theorem showCompletesOnSchedule : Obligations.ShowCompletesOnSchedule := by
  intro s hinv hlow haccepts
  have hwait := s.lt_lastWaitTick
  have hlatest := State.lastWaitTick_le hinv.latch_past
  refine ⟨⟨by omega, by omega⟩, fun k hone hk => ?_, ?_⟩
  · obtain ⟨t, hrun, hduring, hst⟩ := runTicks_wait hinv hlow haccepts (k := k - 1) (by omega)
    rw [Nat.sub_add_cancel hone] at hrun hduring
    exact ⟨t, hrun, hst, dout_eq_false_of_ne_txh (by simp [hst]), hduring.now⟩
  · obtain ⟨t, u, hduring, hend, hstep, hrun⟩ := runTicks_frameEnd hinv hlow haccepts
    obtain ⟨u', hstep', hidle, -, -, hlv, htend, hnow, hanswer, hshow, hconfig, hbytes, -⟩ :=
      frameEndStampsAndAnswers.1 t hend hduring.resetLow.ports
    obtain rfl : u' = u := by simpa [hstep] using hstep'.symm
    have hstamp : u'.tend = s.lastWaitTick + 1 + s.frameTicks := by
      rw [htend, hduring.now]
      omega
    refine ⟨u', hrun, hidle, hlv, hstamp, hnow, hanswer, hshow, hduring.config.trans hconfig,
      fun addr => (hbytes addr).trans (State.byteAt_congr hduring.raw addr), fun hlv => ?_⟩
    have hready : s.tend + s.timing.tlatch ≤ s.lastWaitTick := by
      rw [State.lastWaitTick, if_pos hlv]
      exact le_max_right _ _
    omega

/-! ### The gap on the wire (43_latch_timer.md R188) -/

/-- Settles O37: only a WAIT tick in which `CanShow()` holds starts a frame, and then `TLATCH[SPEED]` ticks have passed. -/
theorem latchGapBeforeNextFrame : Obligations.LatchGapBeforeNextFrame := by
  intro s t hrst hnotHigh hnotLow hhigh h hlv hpast
  cases step_effect h with
  | reset rst => simp [hrst] at rst
  | nothing _ st _ eq | illegal _ st _ _ _ eq | waiting _ st _ eq => subst eq; simp [st] at hhigh
  | command _ st _ _ _ run =>
    rcases exec_st run with hkeep | ⟨hwait, -⟩
    · simp [hkeep, st] at hhigh
    · simp [hwait] at hhigh
  | highGoesOn _ st | highEnds _ st => exact absurd st hnotHigh
  | lowGoesOn _ st | nextBit _ st | nextByte _ st | frameEnd _ st => exact absurd st hnotLow
  | frameStart _ st ready =>
    have hkeep := step_keepsWhileBusy (by simp [st]) hrst h
    have hgap : s.timing.tlatch ≤ s.now - s.tend := ((canShow_iff s).1 ready).resolve_left (by simp [hlv])
    exact ⟨by rw [hkeep.now]; omega, hkeep.latch (by simp [hhigh])⟩

end Sys2Proof.Machine
end

