-- ==== Sys2Proof/Proofs/PixelBuffer.lean ====
section
/-! The pixel buffer as a whole: byte access (20_memory.md R41), what CLEAR leaves (41_pixel_access.md R116), which bytes the storing
commands can change, what a record reads after a SETPIX, and the inert state (R117). -/

namespace Sys2Proof.Machine

/-! ### Byte access -/

/-- Settles O52: a write that is defined is the one `Memory.put`, which reads back and leaves every other address alone. -/
theorem byteAccessOutsideBufferIsRefused : Obligations.ByteAccessOutsideBufferIsRefused := by
  refine ⟨fun _ _ => rfl, fun _ _ v h => memWriteAll_of_ge h v [], fun s addr v h => ?_⟩
  exact ⟨_, memWriteAll_of_lt (by simpa using h), rfl, fun hwf => (Memory.get_put hwf addr v addr).trans (if_pos rfl),
    fun x hx => Memory.get_put_other s.raw v hx⟩

/-! ### CLEAR (R116) -/

theorem byteAt_clearWrites_of_lt {s : State} (hwf : s.raw.wf = true) {addr : Nat} (h : addr < s.len) :
    (s.withRaw (clearWrites s)).byteAt addr = 0 :=
  Memory.get_putAll_same hwf (fun _ hc _ => (mem_clearWrites.1 hc).2) ⟨(addr, 0), mem_clearWrites.2 ⟨h, rfl⟩, rfl⟩

theorem byteAt_clearWrites_of_ge {s : State} {addr : Nat} (h : s.len ≤ addr) :
    (s.withRaw (clearWrites s)).byteAt addr = s.byteAt addr := by
  refine Memory.get_putAll_other s.raw fun c hc => ?_
  have := (mem_clearWrites.1 hc).1
  omega

/-- Settles O16: CLEAR is its list of writes, one of 0 for every address below `LEN`. -/
theorem clearZeroesEveryByte : Obligations.ClearZeroesEveryByte := fun s hwf =>
  ⟨_, exec_clear s, answers_respond _ _ _, keepsRegisters_withRaw_respond _ _ _ _,
    fun _ h => byteAt_clearWrites_of_lt hwf h, fun _ h => byteAt_clearWrites_of_ge h⟩

theorem channelByte_black (o : BitVec 8) (off : Nat) : channelByte o 0 off = 0 := by
  simp [channelByte, extract]

/-- Every address of the buffer lies in the record of a pixel. -/
theorem State.exists_record_of_lt_len {s : State} {addr : Nat} (h : addr < s.len) :
    ∃ i off, i < s.n.toNat ∧ off < s.channels ∧ addr = s.recordBase i + off := by
  have hpos : 0 < s.channels := channelsOf_pos s.order
  exact ⟨addr / s.channels, addr % s.channels, Nat.div_lt_of_lt_mul (by rwa [Nat.mul_comm]), Nat.mod_lt _ hpos,
    (Nat.div_add_mod' addr s.channels).symm⟩

/-- A black FILL of the whole buffer reads byte for byte as a CLEAR. -/
theorem byteAt_fillWrites_black {s : State} (hv : validOrder s.order = true) (hwf : s.raw.wf = true) (addr : Nat) :
    (s.withRaw (fillWrites s 0 s.n.toNat 0)).byteAt addr = (s.withRaw (clearWrites s)).byteAt addr := by
  by_cases h : addr < s.len
  · obtain ⟨i, off, hi, hoff, rfl⟩ := State.exists_record_of_lt_len h
    rw [byteAt_clearWrites_of_lt hwf h, byteAt_fillWrites_of_mem hv hwf (Nat.zero_le i) hi hoff, channelByte_black]
  · have hout : s.recordBase s.n.toNat ≤ addr := Nat.not_lt.1 h
    rw [byteAt_clearWrites_of_ge hout, byteAt_fillWrites_of_outside hv (.inr hout)]

/-- With no pixels there is nothing to clear. -/
theorem clearWrites_of_inert {s : State} (h : s.n = 0) : clearWrites s = [] := by
  simp [clearWrites, State.len_eq_zero h]

/-- Settles O17: canonical memories that read alike are equal; in the inert state neither command stores anything. -/
theorem clearEqualsFillWithBlack : Obligations.ClearEqualsFillWithBlack := by
  intro s hv hwf
  by_cases h : (0 : PixelCount).toNat < s.n.toNat
  · exact ⟨_, _, exec_clear s, exec_fill_of_lt hv h 0 0,
      Memory.ext_get (Memory.putAll_wf hwf _) (Memory.putAll_wf hwf _) fun addr =>
        (byteAt_fillWrites_black hv hwf addr).symm⟩
  · have hn : s.n = 0 := by bv_omega
    refine ⟨_, _, exec_clear s, exec_fill_of_ge h 0 0, ?_⟩
    rw [clearWrites_of_inert hn]
    rfl

/-! ### The inert state (R117) -/

/-- Settles O23: no index is in range, and there is nothing to clear. -/
theorem inertStateMakesBufferCommandsNoOps : Obligations.InertStateMakesBufferCommandsNoOps := by
  intro s i hn hcmd
  have hout (index : PixelCount) : ¬ index.toNat < s.n.toNat := by simp [hn]
  have hanswer : exec i s = .next (s.respond .ok 0) := by
    rcases hcmd with ⟨index, color, rfl⟩ | ⟨index, rfl⟩ | ⟨color, first, count, rfl⟩ | rfl
    · exact exec_setpix_of_ge (hout index) color
    · rw [exec, execGetpix, if_neg (hout index)]
    · exact exec_fill_of_ge (hout first) color count
    · rw [exec_clear, clearWrites_of_inert hn]
      rfl
  exact ⟨_, hanswer, answers_respond _ _ _, keepsRegisters_respond _ _ _, sameBytes_respond _ _ _⟩

/-! ### One record (R111, R119) -/

/-- The record of pixel `i` is the channel offsets of a valid order, moved to its base. -/
theorem map_fst_placeWrites (s : State) (i : Nat) (color : Color) :
    (placeWrites s i color).map Prod.fst =
      ([roffOf s.order, goffOf s.order, boffOf s.order] ++ if s.channels = 4 then [woffOf s.order] else []).map
        (s.recordBase i + ·) := by
  unfold placeWrites
  split <;> rfl

/-- Settles O24: the offsets of a valid order are a permutation of the positions of a record (30_encoding.md R65). -/
theorem placeWritesEachRecordByteOnce : Obligations.PlaceWritesEachRecordByteOnce := by
  intro s i color hv
  rw [map_fst_placeWrites, List.range'_eq_map_range]
  refine List.Perm.map _ ?_
  rcases (validOrder_iff_perm s.order).1 hv with ⟨hthree, hperm⟩ | ⟨hfour, hperm⟩
  · have hch : s.channels = 3 := if_pos hthree
    simpa [hch, List.range_succ] using hperm
  · have hch : s.channels = 4 := if_neg hfour
    simpa [hch, List.range_succ] using hperm

/-- A colour without its white byte. -/
theorem pack_extract_no_white (c : Color) :
    pack ⟨0, (extract c).r, (extract c).g, (extract c).b⟩ = c &&& 0x00FFFFFF#32 := by
  apply BitVec.eq_of_toNat_eq
  have hmask : (c &&& 0x00FFFFFF#32).toNat = c.toNat % 2 ^ 24 := Nat.and_two_pow_sub_one_eq_mod c.toNat 24
  have hwhite : (0 : Byte).toNat = 0 := rfl
  simp only [hmask, pack_toNat, extract_r_toNat, extract_g_toNat, extract_b_toNat, hwhite]
  omega

/-- A record that holds a colour reads as that colour, without its white byte where there is no white channel. -/
theorem HoldsColor.pixelAt {t : State} {i : Nat} {color : Color} (h : HoldsColor t i color) :
    t.pixelAt i = if t.channels = 4 then color else color &&& 0x00FFFFFF#32 := by
  by_cases hwhite : t.channels = 4
  · rw [State.pixelAt, if_pos hwhite, if_pos hwhite, h.red, h.green, h.blue, h.white hwhite]
    exact pack_extract color
  · rw [State.pixelAt, if_neg hwhite, if_neg hwhite, h.red, h.green, h.blue]
    exact pack_extract_no_white color

theorem State.pixelAt_congr {s t : State} {i : Nat} (hv : validOrder s.order = true) (horder : t.order = s.order)
    (h : ∀ off < s.channels, t.byteAt (s.recordBase i + off) = s.byteAt (s.recordBase i + off)) :
    t.pixelAt i = s.pixelAt i := by
  obtain ⟨hr, hg, hb, hw, -⟩ := validOrder_offsets hv
  have hch : t.channels = s.channels := State.channels_congr horder
  have hbase : t.recordBase i = s.recordBase i := by rw [State.recordBase, hch, State.recordBase]
  rw [State.pixelAt, hbase, hch, horder, h _ hr, h _ hg, h _ hb, h _ hw, State.pixelAt]

/-- The record of another pixel lies before or behind. -/
theorem State.record_outside (s : State) {i j off : Nat} (hne : j ≠ i) (hoff : off < s.channels) :
    s.recordBase j + off < s.recordBase i ∨ s.recordBase (i + 1) ≤ s.recordBase j + off := by
  rcases Nat.lt_or_gt_of_ne hne with hlt | hgt
  · have hmono := s.recordBase_mono (Nat.succ_le_of_lt hlt)
    rw [Nat.succ_eq_add_one, State.recordBase_succ] at hmono
    omega
  · have hmono := s.recordBase_mono (Nat.succ_le_of_lt hgt)
    exact .inr (Nat.le_add_right_of_le hmono)

/-- A SETPIX leaves a record that reads as its colour. -/
theorem pixelAt_setpix_same {s : State} (hv : validOrder s.order = true) (hwf : s.raw.wf = true) (i : Nat) (color : Color) :
    ((s.withRaw (placeWrites s i color)).respond .ok 0).pixelAt i =
      if s.channels = 4 then color else color &&& 0x00FFFFFF#32 := by
  rw [placeWrites_eq_fillWrites]
  exact (holdsColor_fillWrites hv hwf (Nat.le_refl i) (Nat.lt_succ_self i) color .ok 0).pixelAt

/-- A SETPIX of pixel `i` leaves what every other pixel reads. -/
theorem pixelAt_setpix_other {s : State} (hv : validOrder s.order = true) {i j : Nat} (hne : j ≠ i) (color : Color) :
    ((s.withRaw (placeWrites s i color)).respond .ok 0).pixelAt j = s.pixelAt j := by
  rw [placeWrites_eq_fillWrites]
  exact State.pixelAt_congr hv rfl fun _ hoff => byteAt_fillWrites_of_outside hv (s.record_outside hne hoff) color

/-- Settles O22: GETPIX answers `pixelAt`, before and after. -/
theorem setpixThenGetpixRoundTrip : Obligations.SetpixThenGetpixRoundTrip := by
  intro s i j color hv hwf hi
  have hv' : validOrder ((s.withRaw (placeWrites s i.toNat color)).respond .ok 0).order = true := hv
  refine ⟨_, _, _, _, exec_setpix_of_lt hv hi color, exec_getpix hv' i, ?_, exec_getpix hv' j, exec_getpix hv j,
    fun hne => ?_⟩
  · rw [← pixelAt_setpix_same hv hwf i.toNat color]
    exact ⟨rfl, rfl, if_pos hi⟩
  · have hother := pixelAt_setpix_other hv (mt BitVec.eq_of_toNat_eq hne) color
    simp only [State.respond_rspd, State.respond_n, State.withRaw_n, hother]

/-! ### What the storing commands can change -/

theorem byteAt_withRaw_of_not_mem (s : State) {ws : List Host.Cell} {addr : Nat} (h : addr ∉ ws.map Prod.fst) :
    (s.withRaw ws).byteAt addr = s.byteAt addr :=
  Memory.get_putAll_other s.raw fun _ hc haddr => h (List.mem_map.2 ⟨_, hc, haddr⟩)

/-- Settles O26: in range the bytes stored are those of the writes the meaning computes, and the rest is a response. -/
theorem frameOfCommandsThatStore : Obligations.FrameOfCommandsThatStore := by
  refine ⟨fun s t index color hexec => ?_, fun s t color first count hexec => ?_, fun s t hexec => ?_⟩
  · by_cases hin : index.toNat < s.n.toNat
    · rw [exec, execSetpix, if_pos hin] at hexec
      cases (withWrites_next hexec).2
      exact ⟨keepsRegisters_withRaw_respond _ _ _ _, fun addr hout => byteAt_withRaw_of_not_mem s (hout hin)⟩
    · cases (exec_setpix_of_ge hin color).symm.trans hexec
      exact ⟨keepsRegisters_respond _ _ _, fun addr _ => sameBytes_respond _ _ _ addr⟩
  · by_cases hin : first.toNat < s.n.toNat
    · rw [exec, execFill, if_pos hin] at hexec
      cases (withWrites_next hexec).2
      exact ⟨keepsRegisters_withRaw_respond _ _ _ _, fun addr hout => byteAt_withRaw_of_not_mem s (hout hin)⟩
    · cases (exec_fill_of_ge hin color count).symm.trans hexec
      exact ⟨keepsRegisters_respond _ _ _, fun addr _ => sameBytes_respond _ _ _ addr⟩
  · cases (exec_clear s).symm.trans hexec
    exact ⟨keepsRegisters_withRaw_respond _ _ _ _, fun addr hout => byteAt_clearWrites_of_ge hout⟩

end Sys2Proof.Machine
end

