-- ==== Sys2Proof/Proofs/Commands.lean ====
section
/-! The commands that store nothing in the buffer and what CFG leaves for them: their frame, the latch timer after a CFG
(43_latch_timer.md section 1), the inert state (60_exceptions.md section 2) and the queries after reset. -/

namespace Sys2Proof.Machine

/-! ### The frame of the commands that store nothing -/

/-- The commands that store nothing in the buffer and load no configuration. -/
def StoresNothing (i : Instr) : Prop :=
  i = .nop ∨ (∃ index, i = .getpix index) ∨ i = .showFrame ∨ i = .canshow ∨ i = .numpix

/-- A command that stores nothing is its answer `OK`, or the start of a SHOW. -/
theorem exec_of_storesNothing {s t : State} {i : Instr} (hi : StoresNothing i) (h : exec i s = .next t) :
    (∃ data, t = s.respond .ok data ∧ ¬ (i = .showFrame ∧ s.n ≠ 0)) ∨
    (t = s.startWait.noResponse ∧ i = .showFrame ∧ s.n ≠ 0) := by
  rcases hi with rfl | ⟨index, rfl⟩ | rfl | rfl | rfl
  · cases h
    exact .inl ⟨_, rfl, by simp⟩
  · by_cases hin : index.toNat < s.n.toNat
    · rw [exec, execGetpix, if_pos hin] at h
      cases withPixel_next h
      exact .inl ⟨_, rfl, by simp⟩
    · rw [exec, execGetpix, if_neg hin] at h
      cases h
      exact .inl ⟨_, rfl, by simp⟩
  · by_cases hn : s.n = 0
    · cases (exec_showFrame_of_inert hn).symm.trans h
      exact .inl ⟨_, rfl, by simp [hn]⟩
    · cases (exec_showFrame_of_pixels hn).symm.trans h
      exact .inr ⟨rfl, rfl, hn⟩
  · cases h
    exact .inl ⟨_, rfl, by simp⟩
  · cases h
    exact .inl ⟨_, rfl, by simp⟩

/-- Settles O25: a response keeps all registers, and a SHOW that starts waiting only sets `ST`. -/
theorem frameOfCommandsThatStoreNothing : Obligations.FrameOfCommandsThatStoreNothing := by
  intro s t i hi h
  rcases exec_of_storesNothing hi h with ⟨data, rfl, hquiet⟩ | ⟨rfl, hshow⟩
  · have hkeep := keepsRegisters_respond s .ok data
    refine ⟨hkeep.config, hkeep.position, hkeep.latch, hkeep.surroundings, sameBytes_respond s .ok data, hkeep.now, ?_⟩
    rw [if_neg hquiet]
    exact hkeep.st
  · refine ⟨⟨rfl, rfl, rfl⟩, ⟨rfl, rfl, rfl⟩, ⟨rfl, rfl⟩, ⟨rfl, rfl⟩, .of_raw rfl, rfl, ?_⟩
    rw [if_pos hshow]
    rfl

/-- Settles O12: `zext_32(N)` is the number `N` at 32 bits. -/
theorem numpixAnswersPixelCount : Obligations.NumpixAnswersPixelCount := by
  intro s
  rw [BitVec.ofNat_toNat]
  exact ⟨_, rfl, answers_respond _ _ _, keepsRegisters_respond _ _ _, sameBytes_respond _ _ _⟩

/-- Settles O19: with pixels a SHOW is `startWait` and no response. -/
theorem showWithPixelsStartsWaiting : Obligations.ShowWithPixelsStartsWaiting := fun _ hn =>
  ⟨_, exec_showFrame_of_pixels hn, rfl, rfl, ⟨rfl, rfl, rfl⟩, ⟨rfl, rfl, rfl⟩, ⟨rfl, rfl⟩, ⟨rfl, rfl⟩, .of_raw rfl, rfl⟩

/-! ### `CanShow()` -/

/-- Settles O21: by its formula `CanShow()` compares the time since the stamp with the latch interval. -/
theorem canShowTurnsTrueAfterLatchInterval : Obligations.CanShowTurnsTrueAfterLatchInterval := by
  refine ⟨fun s => canShow_of_lv_eq_false, fun s hlv hpast => ?_, fun s => canShow_eq_false_at_tend,
    fun s st n raw => canShow_congr rfl rfl rfl rfl rfl⟩
  rw [canShow_iff, hlv]
  change true = false ∨ s.timing.tlatch ≤ s.now - s.tend ↔ s.tend + s.timing.tlatch ≤ s.now
  simp only [Bool.true_eq_false, false_or]
  omega

/-! ### After a CFG -/

/-- Settles O10: a CFG writes neither `LV` nor `TEND`, and `CanShow()` reads the class it loads. -/
theorem cfgKeepsLatchAndUsesNewClass : Obligations.CfgKeepsLatchAndUsesNewClass :=
  fun s count _ speed hvalid => ⟨_, exec_cfg_of_valid hvalid s count speed, rfl, rfl, canShow_iff _⟩

/-- Settles O11: over capacity a CFG leaves `N = 0`, which NUMPIX reads, and the CFG that fits leaves its count. -/
theorem overCapacityCfgIsInertUntilNextFit : Obligations.OverCapacityCfgIsInertUntilNextFit := by
  intro s count count' order order' speed speed' hvalid hvalid' hover hfits
  have hinert := (State.configure_of_over_capacity (Nat.not_le.2 hover) speed).1
  refine ⟨_, _, _, exec_cfg_of_valid hvalid s count speed, answers_respond _ _ _, hinert, rfl, rfl, rfl,
    ⟨rfl, rfl, ?_⟩, exec_cfg_of_valid hvalid' _ count' speed', answers_respond _ _ _,
    (State.configure_of_fits hfits speed').1⟩
  simp only [State.respond_rspd, State.respond_n, hinert]
  rfl

/-! ### After reset -/

/-- Settles O47: the reset state is inert, and its latch timer has never been set. -/
theorem queriesAfterResetSeeInertBlock : Obligations.QueriesAfterResetSeeInertBlock := by
  intro p
  refine ⟨⟨_, rfl, answers_respond _ _ _⟩, fun index => ?_, ⟨_, rfl, answers_respond _ _ _⟩,
    ⟨_, exec_showFrame_of_inert rfl, answers_respond _ _ _, rfl⟩⟩
  obtain ⟨t, hexec, hanswer, -⟩ := inertStateMakesBufferCommandsNoOps { State.reset with par := p } (.getpix index) rfl
    (.inr (.inl ⟨index, rfl⟩))
  exact ⟨t, hexec, hanswer⟩

end Sys2Proof.Machine
end

