-- ==== Sys2Proof/Proofs/Ticks.lean ====
section
/-! Whole ticks: time (10_state.md R20), responses (R21, 30_encoding.md R68), acceptance (40_config_query.md R95), what a tick can
change, and the command port (20_memory.md R49). -/

namespace Sys2Proof.Machine

/-! ### Time -/

/-- Settles O38, by whether `rst` is high. -/
theorem timeAdvancesEveryTick : Obligations.TimeAdvancesEveryTick := by
  intro s t h
  by_cases hrst : s.ports.rst = true
  · rw [if_pos hrst]
    cases (step_reset hrst).symm.trans h
    rfl
  · rw [if_neg hrst]
    exact step_now_of_rst_low (Bool.eq_false_iff.2 hrst) h

/-- Settles O42: the tick is `nothing`, which is the end of a tick without a response. -/
theorem idleTickWithoutCommandOnlyPassesTime : Obligations.IdleTickWithoutCommandOnlyPassesTime :=
  fun _ hrst hst hvalid => ⟨_, step_nothing hrst hst hvalid, rfl, keepsRegisters_noResponse _, .of_raw (by simp)⟩

/-! ### Acceptance -/

/-- In IDLE the host moves on: the block takes whatever it presents. -/
theorem State.nextHostTick_of_idle {s : State} (hst : s.st = .idle) :
    s.nextHostTick = { s with host := s.host.tail } := by
  simp [State.nextHostTick, State.keepsCommand, hst]

theorem Accepts.idle {s : State} {w : CmdWord} : Accepts s w → s.st = .idle
  | ⟨_, hst, _, _⟩ => hst

/-- Settles O41: the block accepts in IDLE, where the host moves on. -/
theorem stepRunsTheAcceptedCommand : Obligations.StepRunsTheAcceptedCommand := by
  intro s w i haccepts hword
  rw [step_command haccepts hword, State.nextHostTick_of_idle haccepts.idle]

/-! ### Responses -/

/-- What the response registers may hold with a response present (30_encoding.md R68). -/
def ResponseAllowed (t : State) : Prop := t.rspc ≠ 3 ∧ (t.rspc ≠ 0 → t.rspd = 0)

theorem responseAllowed_respond_ok (s : State) (data : BitVec 32) : ResponseAllowed (s.respond .ok data) :=
  ⟨by simp [RspCode.bits], fun h => absurd rfl h⟩

theorem responseAllowed_respond_zero (s : State) (code : RspCode) : ResponseAllowed (s.respond code 0) :=
  ⟨by cases code <;> simp [RspCode.bits], fun _ => rfl⟩

theorem responseAllowed_withWrites {s t : State} {ws : List Host.Cell}
    (h : withWrites s ws (fun u => .next (u.respond .ok 0)) = .next t) : ResponseAllowed t := by
  cases (withWrites_next h).2
  exact responseAllowed_respond_ok _ _

/-- Every answer of a command is `OK`, but for the `BAD_ORDER` of a CFG, which carries the data 0. -/
theorem exec_responseAllowed {s t : State} {i : Instr} (h : exec i s = .next t) (hpresent : t.rspv = true) :
    ResponseAllowed t := by
  have storesNothing (hi : StoresNothing i) : ResponseAllowed t := by
    rcases exec_of_storesNothing hi h with ⟨data, rfl, -⟩ | ⟨rfl, -⟩
    · exact responseAllowed_respond_ok s data
    · cases hpresent
  cases i with
  | nop | getpix | showFrame | canshow | numpix => exact storesNothing (by simp [StoresNothing])
  | cfg count order speed =>
    by_cases hvalid : validOrder order = true
    · cases (exec_cfg_of_valid hvalid s count speed).symm.trans h
      exact responseAllowed_respond_ok _ _
    · cases (exec_cfg_of_invalid (Bool.eq_false_iff.2 hvalid) s count speed).symm.trans h
      exact responseAllowed_respond_zero _ _
  | setpix index color =>
    rw [exec, execSetpix] at h
    split at h
    · exact responseAllowed_withWrites h
    · cases h
      exact responseAllowed_respond_ok _ _
  | fill color first count =>
    rw [exec, execFill] at h
    split at h
    · exact responseAllowed_withWrites h
    · cases h
      exact responseAllowed_respond_ok _ _
  | clear => exact responseAllowed_withWrites h

/-- Settles O40: besides the commands, an illegal word and a frame end answer. -/
theorem responseCodeThreeIsNeverProduced : Obligations.ResponseCodeThreeIsNeverProduced := by
  intro s t h hpresent
  cases step_effect h with
  | reset _ eq | nothing _ _ _ eq | waiting _ _ _ eq | frameStart _ _ _ _ eq | highGoesOn _ _ _ eq
  | highEnds _ _ _ _ eq | lowGoesOn _ _ _ eq | nextBit _ _ _ _ _ eq | nextByte _ _ _ _ _ eq =>
    subst eq
    cases hpresent
  | illegal _ _ _ _ _ eq => subst eq; exact responseAllowed_respond_zero _ _
  | command _ _ _ _ _ run => exact exec_responseAllowed run hpresent
  | frameEnd _ _ _ _ _ eq => subst eq; exact responseAllowed_respond_ok _ _

/-- A command answers at once, unless it is a SHOW with pixels to send. -/
theorem exec_rspv {s t : State} {i : Instr} (h : exec i s = .next t) :
    t.rspv = true ↔ ¬ (i = .showFrame ∧ s.n ≠ 0) := by
  by_cases hshow : i = .showFrame ∧ s.n ≠ 0
  · obtain ⟨rfl, hn⟩ := hshow
    cases (exec_showFrame_of_pixels hn).symm.trans h
    exact iff_of_false Bool.false_ne_true (not_not.2 ⟨rfl, hn⟩)
  · cases exec_effect h with
    | answer ws code data inRange eq => subst eq; exact iff_of_true rfl hshow
    | configure count order speed cmd valid eq => subst eq; exact iff_of_true rfl hshow
    | startsShow cmd pixels eq => exact absurd ⟨cmd, pixels⟩ hshow

/-- The accepted word is an effective SHOW exactly if it decodes to SHOW and there are pixels to send. -/
theorem acceptsShow_iff {s : State} (haccepts : Accepts s s.ports.cmd) :
    AcceptsShow s ↔ decode s.ports.cmd = .ok .showFrame ∧ s.n ≠ 0 := by
  constructor
  · rintro ⟨⟨-, -, -, hword⟩, hn⟩
    exact ⟨by rw [hword, decode_encode], hn⟩
  · rintro ⟨hword, hn⟩
    exact ⟨(encode_of_decode hword).symm ▸ haccepts, hn⟩

/-- A response comes only after an accepted word, but for a frame end. -/
theorem step_rspv_of_idle {s t : State} (hst : s.st = .idle) (h : step s = .next t) :
    t.rspv = true ↔ (∃ w, Accepts s w) ∧ ¬ AcceptsShow s := by
  cases step_effect h with
  | reset rst eq => subst eq; simp [Accepts, rst]
  | nothing rst _ valid eq => subst eq; simp [Accepts, valid]
  | illegal rst _ valid e word eq =>
    have haccepts : Accepts s s.ports.cmd := ⟨rst, hst, valid, rfl⟩
    subst eq
    simp only [State.respond_rspv, acceptsShow_iff haccepts, word, reduceCtorEq, false_and, not_false_eq_true, and_true,
      true_iff]
    exact ⟨_, haccepts⟩
  | command rst _ valid i word run =>
    have haccepts : Accepts s s.ports.cmd := ⟨rst, hst, valid, rfl⟩
    rw [exec_rspv run, acceptsShow_iff haccepts, word, State.nextHostTick_n, Except.ok.injEq]
    exact ⟨fun hquiet => ⟨⟨_, haccepts⟩, hquiet⟩, And.right⟩
  | waiting _ st | frameStart _ st | highGoesOn _ st | highEnds _ st | lowGoesOn _ st | nextBit _ st | nextByte _ st
  | frameEnd _ st => simp [hst] at st

theorem step_rspv_of_busy {s t : State} (hinv : Inv s) (hbusy : s.st ≠ .idle) (h : step s = .next t) :
    t.rspv = true ↔ s.ports.rst = false ∧ AtFrameEnd s := by
  cases step_effect h with
  | nothing _ st | illegal _ st | command _ st => exact absurd st hbusy
  | reset rst eq => subst eq; simp [rst]
  | waiting _ st _ eq | frameStart _ st _ _ eq | highGoesOn _ st _ eq | highEnds _ st _ _ eq =>
    subst eq
    simp [AtFrameEnd, st]
  | lowGoesOn _ _ cnt eq => subst eq; simp [AtFrameEnd, cnt.ne']
  | nextBit _ _ _ bit _ eq =>
    subst eq
    exact iff_of_false Bool.false_ne_true fun ⟨_, _, _, hzero, _⟩ => bit hzero
  | nextByte _ _ _ _ addr eq => subst eq; simp [AtFrameEnd, addr]
  | frameEnd rst st cnt bit addr eq =>
    have hpos := hinv.tx_cnt ((txActive_iff s).2 (.inr st))
    subst eq
    simp only [State.respond_rspv, true_iff]
    exact ⟨rst, st, by omega, bit, addr⟩

/-- Settles O39: an idle block answers a word, a busy one the end of its frame. -/
theorem responseExactlyAfterCommandOrFrame : Obligations.ResponseExactlyAfterCommandOrFrame := by
  intro s t hinv h
  by_cases hst : s.st = .idle
  · have hnoEnd : ¬ AtFrameEnd s := fun hend => by simp [AtFrameEnd, hst] at hend
    rw [step_rspv_of_idle hst h]
    simp only [hnoEnd, and_false, or_false]
  · have hnoWord : ¬ ∃ w, Accepts s w := fun ⟨_, haccepts⟩ => hst haccepts.idle
    rw [step_rspv_of_busy hinv hst h]
    simp only [hnoWord, false_and, false_or]

/-! ### What a tick can change -/

/-- Settles O32: `KeepsWhileBusy` has the configuration and the bytes, and `rawBytes` reads only these. -/
theorem bufferAndConfigConstantWhileBusy : Obligations.BufferAndConfigConstantWhileBusy := by
  intro s t hbusy hrst h
  have hkeep := step_keepsWhileBusy hbusy hrst h
  refine ⟨hkeep.config, hkeep.sameBytes, ?_⟩
  rw [State.rawBytes, State.rawBytes, State.len_congr hkeep.config.n hkeep.config.order]
  exact List.map_congr_left fun addr _ => hkeep.sameBytes addr

/-- A command that can change a byte (40_config_query.md R91, 41_pixel_access.md R113, R115, R116). -/
def ChangesBuffer (i : Instr) : Prop :=
  (∃ count order speed, i = .cfg count order speed) ∨ (∃ index color, i = .setpix index color) ∨
    (∃ color first count, i = .fill color first count) ∨ i = .clear

theorem storesNothing_of_not_changesBuffer {i : Instr} (h : ¬ ChangesBuffer i) : StoresNothing i := by
  cases i with
  | nop | getpix | showFrame | canshow | numpix => simp [StoresNothing]
  | cfg | setpix | fill | clear => exact absurd (by simp [ChangesBuffer]) h

theorem sameBytes_of_storesNothing {s t : State} {i : Instr} (hi : StoresNothing i) (h : exec i s = .next t) :
    SameBytes s t := by
  obtain ⟨-, -, -, -, hbytes, -⟩ := frameOfCommandsThatStoreNothing s t i hi h
  exact hbytes

/-- Settles O53: of the kinds of tick only an accepted command stores or configures, and the frames of the other commands are known. -/
theorem onlyBufferCommandsChangeTheBuffer : Obligations.OnlyBufferCommandsChangeTheBuffer := by
  intro s t hrst h
  cases step_tickKind h with
  | reset rst => simp [hrst] at rst
  | quiet keeps raw =>
    exact ⟨.inl ((sameConfig_nextHostTick s).trans keeps.config), .inl (.of_raw raw)⟩
  | busy keeps => exact ⟨.inl keeps.config, .inl keeps.sameBytes⟩
  | command i accepts word run =>
    constructor
    · by_cases hcfg : ∃ count order speed, i = .cfg count order speed
      · obtain ⟨count, order, speed, rfl⟩ := hcfg
        exact .inr ⟨_, count, order, speed, accepts, word⟩
      · have hsame := exec_sameConfig (fun count order speed hi => hcfg ⟨count, order, speed, hi⟩) run
        exact .inl ((sameConfig_nextHostTick s).trans hsame)
    · by_cases hchanges : ChangesBuffer i
      · exact .inr ⟨_, i, accepts, word, hchanges⟩
      · have hsame := sameBytes_of_storesNothing (storesNothing_of_not_changesBuffer hchanges) run
        exact .inl fun addr => (hsame addr).trans (State.nextHostTick_byteAt s addr)

/-! ### The command port -/

theorem State.nextHostTick_presents_of_quiet {p : HostTick} (h : p.cmdValid = false ∨ p.rst = true) (s : State) :
    (s.presents p).nextHostTick = s := by
  have hkeep : (s.presents p).keepsCommand = false := by
    rcases h with h | h <;> simp [State.keepsCommand, State.ports, State.presents, h]
  rw [State.nextHostTick, hkeep]
  rfl

/-- Settles O43: the host moves on whatever the word, and no tick but an accepting one reads it. -/
theorem commandWordIsIgnoredUnlessValid : Obligations.CommandWordIsIgnoredUnlessValid := by
  intro s w w' rst valid hold hquiet
  have hnext (v : CmdWord) : (s.presents ⟨rst, valid, v, hold⟩).nextHostTick = s :=
    State.nextHostTick_presents_of_quiet hquiet s
  by_cases hrst : rst = true
  · have hreset (v : CmdWord) : (s.presents ⟨rst, valid, v, hold⟩).ports.rst = true := hrst
    rw [step_reset (hreset w), step_reset (hreset w'), hnext, hnext]
  · have hvalid : valid = false := hquiet.resolve_right hrst
    by_cases hst : s.st = .idle
    · have hlow (v : CmdWord) : (s.presents ⟨rst, valid, v, hold⟩).ports.rst = false := Bool.eq_false_iff.2 hrst
      rw [step_nothing (hlow w) hst hvalid, step_nothing (hlow w') hst hvalid, hnext, hnext]
    · exact step_congr_of_busy hst rfl ((hnext w).trans (hnext w').symm)

/-- A busy block leaves a held word where it is. -/
theorem State.nextHostTick_presents_held {s : State} (hbusy : s.st ≠ .idle) (w : CmdWord) :
    (s.presents (.held w)).nextHostTick = s.presents (.held w) := by
  simp [State.nextHostTick, State.keepsCommand, State.ports, State.presents, HostTick.held, hbusy]

/-- Settles O31: with a held word the tick is of the same case as with none, and the host's list is all that differs. -/
theorem busyBlockIgnoresCommandPort : Obligations.BusyBlockIgnoresCommandPort := by
  refine fun s w hbusy => ⟨step_presents_once_of_busy hbusy w, fun t h => ?_⟩
  have hheld := State.nextHostTick_presents_held hbusy w
  have hsilent := State.nextHostTick_presents (p := .silent) rfl s
  cases step_effect h with
  | reset rst => cases rst
  | nothing _ st | illegal _ st | command _ st => exact absurd st hbusy
  | waiting _ st early eq =>
    rw [eq, hsilent, step_waiting (s := s.presents (.held w)) rfl st early, hheld]
    rfl
  | frameStart _ st ready pixels eq =>
    rw [eq, hsilent, step_frameStart (s := s.presents (.held w)) rfl st ready pixels, hheld]
    rfl
  | highGoesOn _ st cnt eq =>
    rw [eq, hsilent, step_highGoesOn (s := s.presents (.held w)) rfl st cnt, hheld]
    rfl
  | highEnds _ st cnt addr eq =>
    rw [eq, hsilent, step_highEnds (s := s.presents (.held w)) rfl st cnt addr, hheld]
    rfl
  | lowGoesOn _ st cnt eq =>
    rw [eq, hsilent, step_lowGoesOn (s := s.presents (.held w)) rfl st cnt, hheld]
    rfl
  | nextBit _ st cnt bit addr eq =>
    rw [eq, hsilent, step_nextBit (s := s.presents (.held w)) rfl st cnt bit addr, hheld]
    rfl
  | nextByte _ st cnt bit addr eq =>
    rw [eq, hsilent, step_nextByte (s := s.presents (.held w)) rfl st cnt bit addr, hheld]
    rfl
  | frameEnd _ st cnt bit addr eq =>
    rw [eq, hsilent, step_frameEnd (s := s.presents (.held w)) rfl st cnt bit addr, hheld]
    rfl

end Sys2Proof.Machine
end
